-- ==== Sys2Proof/Word.lean ====
section
/-! DEFINITION. The one word type of the machine.
Every register, memory cell, operand and address is a single unsigned byte
(`00_scope.md` R6, R7); the spec's `a +8 b` and `a -8 b` (R8) are `+` and `-` of
`BitVec 8`, which wrap modulo 256. -/

namespace Sys2Proof

/-- An unsigned byte, 0 to 255, bit 0 the least significant (R7). -/
abbrev Byte := BitVec 8

end Sys2Proof
end

