-- ==== Sys2Proof/Config.lean ====
section
/-! DEFINITION. The fixed sizes and the implementation parameters of the core
(`00_scope.md` R6). `OPCODE_MAP` is an argument of the decoder (Decode.lean) and the
oracle `OUT_OK` is plain data of the state (Machine/State.lean). -/

namespace Sys2Proof

/-- `NREGS` (R6). -/
abbrev numRegs : Nat := 12

/-- `MEMSIZE` (R6). -/
abbrev memSize : Nat := 256

/-- An index into the register file `x[0..11]` (`10_state.md` R20). -/
abbrev Reg := Fin numRegs

/-- `PC` is index 0 (`10_state.md` R24). -/
def Reg.pc : Reg := 0
/-- `SP` is index 1 (`10_state.md` R28). -/
def Reg.sp : Reg := 1
/-- `CC` is index 2 (`10_state.md` R29). -/
def Reg.cc : Reg := 2
/-- `XR` is index 3 (`10_state.md` R34). -/
def Reg.xr : Reg := 3

/-- The operand byte that names a register. -/
def Reg.toByte (r : Reg) : Byte := BitVec.ofNat 8 r.val

/-- The parameters an implementation fixes and no step or command writes. They are carried in
the state as plain data, so that a statement about every state holds for every value
(DESIGN CHOICE, notes/assumptions/5.md; safe). -/
structure Config where
  /-- `EOS_BYTE`, the byte IN writes at end of stream (R6, `45_io.md` R221). -/
  eosByte : Byte
  deriving DecidableEq, Repr

/-- The value the spec takes for `EOS_BYTE` (R6: 0x00).
DESIGN CHOICE of the spec (D9, notes/assumptions/5.md); unsafe for a claim that uses it. -/
def Config.ofSpec : Config where
  eosByte := 0x00

end Sys2Proof
end

