-- ==== Sys2Proof/Syntax.lean ====
section
/-! DEFINITION. The instructions as syntax: one constructor of `Instr` for each of the 44
rows of the opcode table (`30_encoding.md` R96, R97). Operands are the bytes fetched, first
`o1` then `o2`; a register operand is a raw byte, checked when the instruction executes
(`40_execution_cycle.md` R124). -/

namespace Sys2Proof

/-- The three roles of an operand byte (`30_encoding.md` R93). -/
inductive OperandKind where
  /-- R: a register index, checked to be below 12. -/
  | reg
  /-- N: an immediate, never checked. -/
  | imm
  /-- A: a memory address or a jump target, never checked. -/
  | addr
  deriving DecidableEq, Repr

/-- An operand byte of kind R. -/
abbrev RegByte := Byte
/-- An operand byte of kind N. -/
abbrev Imm := Byte
/-- An operand byte of kind A. -/
abbrev Addr := Byte

/-- The 44 mnemonics in the order of the table (`30_encoding.md` R96). `inp` is IN. -/
inductive Mnemonic where
  | mov | movn | load | loada | store | storea | push | pushn | pop
  | inc | incn | dec | decn | add | addn | sub | subn
  | and | andn | or | orn | xor | xorn | not | notn
  | cmp | cmpn | tst
  | jmp | je | jne | jl | jle | jg | jge | jeof | jneof | call | ret
  | inp | out | outn
  | nop | halt
  deriving DecidableEq, Repr

/-- An instruction with its operand bytes in fetch order (`30_encoding.md` R94). -/
inductive Instr where
  /-- MOV src, dst (R140). -/
  | mov (src dst : RegByte)
  /-- MOVN n, dst (R141). -/
  | movn (n : Imm) (dst : RegByte)
  /-- LOAD src, dst: `src` holds the address (R142). -/
  | load (src dst : RegByte)
  /-- LOADA a, dst (R143). -/
  | loada (a : Addr) (dst : RegByte)
  /-- STORE src, dst: `dst` holds the address (R144). -/
  | store (src dst : RegByte)
  /-- STOREA src, a (R145). -/
  | storea (src : RegByte) (a : Addr)
  /-- PUSH src (R146). -/
  | push (src : RegByte)
  /-- PUSHN n (R147). -/
  | pushn (n : Imm)
  /-- POP dst (R148). -/
  | pop (dst : RegByte)
  /-- INC src, dst (R162). -/
  | inc (src dst : RegByte)
  /-- INCN n, dst (R163). -/
  | incn (n : Imm) (dst : RegByte)
  /-- DEC src, dst (R164). -/
  | dec (src dst : RegByte)
  /-- DECN n, dst (R165). -/
  | decn (n : Imm) (dst : RegByte)
  /-- ADD src, dst (R166). -/
  | add (src dst : RegByte)
  /-- ADDN n, dst (R167). -/
  | addn (n : Imm) (dst : RegByte)
  /-- SUB src, dst (R168). -/
  | sub (src dst : RegByte)
  /-- SUBN n, dst (R169). -/
  | subn (n : Imm) (dst : RegByte)
  /-- AND src, dst (R170). -/
  | and (src dst : RegByte)
  /-- ANDN n, dst: AND with an immediate (R171). -/
  | andn (n : Imm) (dst : RegByte)
  /-- OR src, dst (R172). -/
  | or (src dst : RegByte)
  /-- ORN n, dst: OR with an immediate (R173). -/
  | orn (n : Imm) (dst : RegByte)
  /-- XOR src, dst (R174). -/
  | xor (src dst : RegByte)
  /-- XORN n, dst (R175). -/
  | xorn (n : Imm) (dst : RegByte)
  /-- NOT src, dst (R176). -/
  | not (src dst : RegByte)
  /-- NOTN n, dst (R177). -/
  | notn (n : Imm) (dst : RegByte)
  /-- CMP a, b (R191). -/
  | cmp (a b : RegByte)
  /-- CMPN a, n: the immediate is fetched second (R192). -/
  | cmpn (a : RegByte) (n : Imm)
  /-- TST a (R193). -/
  | tst (a : RegByte)
  /-- JMP t (R203). -/
  | jmp (t : Addr)
  /-- JE t (R204). -/
  | je (t : Addr)
  /-- JNE t (R205). -/
  | jne (t : Addr)
  /-- JL t (R206). -/
  | jl (t : Addr)
  /-- JLE t (R207). -/
  | jle (t : Addr)
  /-- JG t (R208). -/
  | jg (t : Addr)
  /-- JGE t (R209). -/
  | jge (t : Addr)
  /-- JEOF t (R210). -/
  | jeof (t : Addr)
  /-- JNEOF t (R211). -/
  | jneof (t : Addr)
  /-- CALL t (R212). -/
  | call (t : Addr)
  /-- RET (R213). -/
  | ret
  /-- IN dst (R221). -/
  | inp (dst : RegByte)
  /-- OUT src (R222). -/
  | out (src : RegByte)
  /-- OUTN n (R223). -/
  | outn (n : Imm)
  /-- NOP (R230). -/
  | nop
  /-- HALT (R231). -/
  | halt
  deriving DecidableEq, Repr

end Sys2Proof
end

