-- ==== Sys2Proof/WellFormed.lean ====
section
/-! DEFINITION. Which instructions are legal: every operand byte of kind R names a register
(`30_encoding.md` R99). Immediates and addresses are legal at every value (R93). An
instruction that is not well formed still decodes; executing it raises BadInstruction
(`40_execution_cycle.md` R124). -/

namespace Sys2Proof

/-- The bound of `CheckReg` (`40_execution_cycle.md` R124). -/
def RegByte.ok (o : RegByte) : Bool := decide (o.toNat < numRegs)

/-- Every R-kind operand is below 12 (`30_encoding.md` R99). -/
def Instr.wf : Instr → Bool
  | .mov a b | .load a b | .store a b | .inc a b | .dec a b | .add a b | .sub a b
  | .and a b | .or a b | .xor a b | .not a b | .cmp a b => RegByte.ok a && RegByte.ok b
  | .movn _ d | .loada _ d | .incn _ d | .decn _ d | .addn _ d | .subn _ d | .andn _ d
  | .orn _ d | .xorn _ d | .notn _ d => RegByte.ok d
  | .storea r _ | .cmpn r _ => RegByte.ok r
  | .push r | .pop r | .tst r | .inp r | .out r => RegByte.ok r
  | .pushn _ | .outn _ | .jmp _ | .je _ | .jne _ | .jl _ | .jle _ | .jg _ | .jge _
  | .jeof _ | .jneof _ | .call _ | .ret | .nop | .halt => true

/-- `Instr.wf` as a proposition. -/
abbrev Instr.WellFormed (i : Instr) : Prop := i.wf = true

end Sys2Proof
end

