-- ==== Sys2Proof/Decode.lean ====
section
/-! DEFINITION. Decoding from bytes, total and rejecting by name, and after it the encoder
(`30_encoding.md` R90 to R100, `40_execution_cycle.md` R122). The opcode byte alone selects
the instruction; `OPCODE_MAP` is an explicit argument, with the spec's default `opcodeMap`. -/

namespace Sys2Proof

/-- The parameter `OPCODE_MAP`: each mnemonic's opcode byte (`00_scope.md` R6). The spec asks
that it be injective; claims that need it say so. -/
abbrev OpcodeMap := Mnemonic → Byte

/-- The 44 rows in table order (R96). -/
def Mnemonic.all : List Mnemonic :=
  [.mov, .movn, .load, .loada, .store, .storea, .push, .pushn, .pop] ++
  [.inc, .incn, .dec, .decn, .add, .addn, .sub, .subn] ++
  [.and, .andn, .or, .orn, .xor, .xorn, .not, .notn] ++
  [.cmp, .cmpn, .tst] ++
  [.jmp, .je, .jne, .jl, .jle, .jg, .jge, .jeof, .jneof, .call, .ret] ++
  [.inp, .out, .outn] ++ [.nop, .halt]

/-- The default `OPCODE_MAP`, column "opcode" of R96.
DESIGN CHOICE of the spec (D1, notes/assumptions/9.md); unsafe for real tkriik/bvm bytecode. -/
def opcodeMap : OpcodeMap
  | .mov => 0x00 | .movn => 0x01 | .load => 0x02 | .loada => 0x03 | .store => 0x04
  | .storea => 0x05 | .push => 0x06 | .pushn => 0x07 | .pop => 0x08
  | .inc => 0x09 | .incn => 0x0A | .dec => 0x0B | .decn => 0x0C
  | .add => 0x0D | .addn => 0x0E | .sub => 0x0F | .subn => 0x10
  | .and => 0x11 | .andn => 0x12 | .or => 0x13 | .orn => 0x14
  | .xor => 0x15 | .xorn => 0x16 | .not => 0x17 | .notn => 0x18
  | .cmp => 0x19 | .cmpn => 0x1A | .tst => 0x1B
  | .jmp => 0x1C | .je => 0x1D | .jne => 0x1E | .jl => 0x1F | .jle => 0x20
  | .jg => 0x21 | .jge => 0x22 | .jeof => 0x23 | .jneof => 0x24
  | .call => 0x25 | .ret => 0x26
  | .inp => 0x27 | .out => 0x28 | .outn => 0x29
  | .nop => 0x2A | .halt => 0x2B

/-- The kinds of the operand bytes, in fetch order: the shapes of R94, by row of R96. -/
def Mnemonic.kinds : Mnemonic → List OperandKind
  | .ret | .nop | .halt => []
  | .push | .pop | .tst | .inp | .out => [.reg]
  | .pushn | .outn => [.imm]
  | .jmp | .je | .jne | .jl | .jle | .jg | .jge | .jeof | .jneof | .call => [.addr]
  | .mov | .load | .store | .inc | .dec | .add | .sub | .and | .or | .xor | .not
  | .cmp => [.reg, .reg]
  | .movn | .incn | .decn | .addn | .subn | .andn | .orn | .xorn | .notn => [.imm, .reg]
  | .loada => [.addr, .reg]
  | .storea => [.reg, .addr]
  | .cmpn => [.reg, .imm]

/-- The number of operand bytes (R90). -/
def Mnemonic.arity (m : Mnemonic) : Nat := m.kinds.length

/-- The shared opcode table: "an ordered list of (mnemonic, operand-arity) pairs, one per opcode
value" (R95, `70_reset_and_hazards.md` R280). Under the default map a row's position is its
opcode value. -/
def sharedOpcodeTable : List (Mnemonic × Nat) := Mnemonic.all.map fun m => (m, m.arity)

/-- The instruction of a mnemonic with operand bytes `o1` and `o2`; a byte the row does not
have is not looked at. -/
def Mnemonic.withOperands (m : Mnemonic) (o1 o2 : Byte) : Instr :=
  match m with
  | .mov => .mov o1 o2 | .movn => .movn o1 o2 | .load => .load o1 o2
  | .loada => .loada o1 o2 | .store => .store o1 o2 | .storea => .storea o1 o2
  | .push => .push o1 | .pushn => .pushn o1 | .pop => .pop o1
  | .inc => .inc o1 o2 | .incn => .incn o1 o2 | .dec => .dec o1 o2 | .decn => .decn o1 o2
  | .add => .add o1 o2 | .addn => .addn o1 o2 | .sub => .sub o1 o2 | .subn => .subn o1 o2
  | .and => .and o1 o2 | .andn => .andn o1 o2 | .or => .or o1 o2 | .orn => .orn o1 o2
  | .xor => .xor o1 o2 | .xorn => .xorn o1 o2 | .not => .not o1 o2 | .notn => .notn o1 o2
  | .cmp => .cmp o1 o2 | .cmpn => .cmpn o1 o2 | .tst => .tst o1
  | .jmp => .jmp o1 | .je => .je o1 | .jne => .jne o1 | .jl => .jl o1 | .jle => .jle o1
  | .jg => .jg o1 | .jge => .jge o1 | .jeof => .jeof o1 | .jneof => .jneof o1
  | .call => .call o1 | .ret => .ret
  | .inp => .inp o1 | .out => .out o1 | .outn => .outn o1
  | .nop => .nop | .halt => .halt

/-- The instruction built from the list of fetched operand bytes. -/
def Mnemonic.build (m : Mnemonic) (ops : List Byte) : Instr :=
  m.withOperands (ops.getD 0 0) (ops.getD 1 0)

/-- What the decoder answers. -/
inductive DecodeResult where
  /-- An instruction, and the bytes after it. -/
  | instr (i : Instr) (rest : List Byte)
  /-- The opcode byte is in no row (R98). -/
  | unknownOpcode (op : Byte)
  /-- The list ends before the instruction does. Only a decode of a finite list can answer
  this: fetching from memory never runs out (`10_state.md` R26). -/
  | truncated
  deriving DecidableEq, Repr

/-- `Decode(op)`: the row that has this opcode value, or none (`40_execution_cycle.md` R122). -/
def decodeOpcode (map : OpcodeMap) (op : Byte) : Option Mnemonic :=
  Mnemonic.all.find? fun m => map m == op

/-- The decoder over a list of bytes, the opcode first (R66, R90). -/
def decodeWith (map : OpcodeMap) : List Byte → DecodeResult
  | [] => .truncated
  | op :: rest =>
    match decodeOpcode map op with
    | none => .unknownOpcode op
    | some m =>
      if rest.length < m.arity then .truncated
      else .instr (m.build (rest.take m.arity)) (rest.drop m.arity)

/-- The decoder under the default map. -/
def decode : List Byte → DecodeResult := decodeWith opcodeMap

/-- The row of the table an instruction belongs to. -/
def Instr.mnemonic : Instr → Mnemonic
  | .mov .. => .mov | .movn .. => .movn | .load .. => .load | .loada .. => .loada
  | .store .. => .store | .storea .. => .storea
  | .push .. => .push | .pushn .. => .pushn | .pop .. => .pop
  | .inc .. => .inc | .incn .. => .incn | .dec .. => .dec | .decn .. => .decn
  | .add .. => .add | .addn .. => .addn | .sub .. => .sub | .subn .. => .subn
  | .and .. => .and | .andn .. => .andn | .or .. => .or | .orn .. => .orn
  | .xor .. => .xor | .xorn .. => .xorn | .not .. => .not | .notn .. => .notn
  | .cmp .. => .cmp | .cmpn .. => .cmpn | .tst .. => .tst
  | .jmp .. => .jmp | .je .. => .je | .jne .. => .jne | .jl .. => .jl | .jle .. => .jle
  | .jg .. => .jg | .jge .. => .jge | .jeof .. => .jeof | .jneof .. => .jneof
  | .call .. => .call | .ret => .ret
  | .inp .. => .inp | .out .. => .out | .outn .. => .outn
  | .nop => .nop | .halt => .halt

/-- The operand bytes in fetch order (R90, R94). -/
def Instr.operands : Instr → List Byte
  | .mov a b | .movn a b | .load a b | .loada a b | .store a b | .storea a b
  | .inc a b | .incn a b | .dec a b | .decn a b | .add a b | .addn a b | .sub a b
  | .subn a b | .and a b | .andn a b | .or a b | .orn a b | .xor a b | .xorn a b
  | .not a b | .notn a b | .cmp a b | .cmpn a b => [a, b]
  | .push a | .pushn a | .pop a | .tst a | .jmp a | .je a | .jne a | .jl a | .jle a
  | .jg a | .jge a | .jeof a | .jneof a | .call a | .inp a | .out a | .outn a => [a]
  | .ret | .nop | .halt => []

/-- The bytes of an instruction: opcode, `o1`, `o2` (R90). -/
def encodeWith (map : OpcodeMap) (i : Instr) : List Byte := map i.mnemonic :: i.operands

/-- The encoder under the default map. -/
def encode : Instr → List Byte := encodeWith opcodeMap

/-- The three bytes, lowest address first, of the number `w` of which `nbits` bits count: bit
0 of `w` is the least significant bit of the first byte. Three bytes is the longest
instruction (R90). -/
def tableBytes (nbits w : Nat) : List Byte :=
  let v := w % 2 ^ nbits
  [BitVec.ofNat 8 v, BitVec.ofNat 8 (v / 256), BitVec.ofNat 8 (v / 65536)]

/-- The instruction the decoder reads from a word of the opcode table. -/
def decodeTableWord (nbits w : Nat) : Option Instr :=
  match decode (tableBytes nbits w) with
  | .instr i _ => some i
  | .unknownOpcode _ => none
  | .truncated => none

end Sys2Proof
end

