-- ==== Sys2Proof/Machine/State.lean ====
section
/-! DEFINITION. The state of the core as plain data (`10_state.md`), the reasons a step or a
host command can stop, and the state after power-on. -/

namespace Sys2Proof.Machine

/-- The run status (`10_state.md` R41). -/
inductive RunStatus where
  /-- No run in progress and none finished. -/
  | idle
  /-- A run is in progress. -/
  | running
  /-- HALT was executed: the run returns success. -/
  | halted
  /-- A validity check failed: the run returns BadInstruction. -/
  | faulted
  deriving DecidableEq, Repr

/-- The diagnostic `info` of a BadInstruction: sub-cause and byte (`60_exceptions.md` R241). -/
inductive FaultInfo where
  /-- The opcode byte is in no row of the table. -/
  | unknownOpcode (op : Byte)
  /-- An R-kind operand byte is 12 or more. -/
  | badRegister (o : Byte)
  deriving DecidableEq, Repr

/-- The one way a host command fails. BadInstruction is no value of this type: taking it is a
next state whose status is Faulted (`60_exceptions.md` R243, notes/assumptions/3.md). -/
inductive Fault where
  /-- ProgramTooLarge: raised by the host command `loadProgram` alone, on a program of more
  than 256 bytes, before anything is written (`60_exceptions.md` R248). No step raises it.
  Safe: the manual's own rejection. -/
  | programTooLarge
  deriving DecidableEq, Repr

/-- What has no meaning in the model. -/
inductive Refusal where
  /-- An instruction whose arm of `exec` has no meaning yet. Raised by no arm: all 44
  instructions have theirs. Safe: the machine stops where the hardware goes on. -/
  | notModelled (mnemonic : String)
  /-- A command given from outside while a run is in progress, which the interface excludes
  (`70_reset_and_hazards.md` R275, R276). Raised by `loadProgram` and `attachStreams` alone,
  never by a step. Safe: nothing happens (notes/assumptions/28.md). -/
  | runInProgress
  deriving DecidableEq, Repr

/-- Memory as the list of its cells that differ from what an unlisted address reads as,
addresses strictly rising (the canonical form `Memory.wf` of Machine/Ops.lean). -/
abbrev Memory := List Host.Cell

/-- The state (`10_state.md`). -/
structure State where
  /-- The register file `x[0..11]`: PC, SP, CC, XR and R0 to R7 (R20 to R23). -/
  regs : Vector Byte numRegs
  /-- The memory `M[0..255]` (R36). -/
  mem : Memory
  /-- The cycle clock, instructions fetched since the last load (R37, R39). -/
  clock : Nat
  /-- The run status (R41). -/
  status : RunStatus
  /-- The bytes the input channel still holds, next first (R44). -/
  input : List Byte
  /-- The bytes written to the output channel, oldest first (R45). -/
  output : List Byte
  /-- The answers of the oracle `OUT_OK` to the next output writes, next first; a write for
  which none is listed succeeds (R45; DESIGN CHOICE, notes/assumptions/6.md). -/
  outAnswers : List Bool
  /-- MODEL'S OWN, not hardware state: the `info` of the BadInstruction that ended the run
  (`60_exceptions.md` R241; DESIGN CHOICE, notes/assumptions/4.md; safe). -/
  faultInfo : Option FaultInfo
  /-- The parameters fixed for the machine (`00_scope.md` R6). -/
  config : Config
  deriving DecidableEq, Repr

/-- All twelve registers zero (R50, R51). -/
def zeroRegs : Vector Byte numRegs := Vector.replicate numRegs 0x00

/-- Power-on (R50, `70_reset_and_hazards.md` R270). The stream contents, the answers and the
parameter are named in notes/assumptions/5.md, 6.md and 7.md. -/
def State.reset : State where
  regs := zeroRegs
  mem := []
  clock := 0
  status := .idle
  input := []
  output := []
  outAnswers := []
  faultInfo := none
  config := Config.ofSpec

end Sys2Proof.Machine
end

