-- ==== Sys2Proof/Machine/Ops.lean ====
section
/-! DEFINITION. The named operations over memory, registers, stack and streams, and taking the
one exception. The pseudocode primitives are those of `00_scope.md` R8. -/

namespace Sys2Proof.Machine

/-! ## Memory (`20_memory.md` R60, R65, R69) -/

/-- What an address no entry lists reads as: memory is zeroed at power-on and by every load
(`10_state.md` R50, R51; notes/assumptions/27.md). -/
def Memory.unlisted : Byte := 0x00

/-- The byte at an address. -/
def Memory.readAt : Memory → Nat → Byte
  | [], _ => Memory.unlisted
  | (b, w) :: rest, a => if b = a then w else Memory.readAt rest a

/-- Store a byte, keeping the canonical form: the value of an unlisted address removes the
entry. -/
def Memory.writeAt : Memory → Nat → Byte → Memory
  | [], a, v => if v = Memory.unlisted then [] else [(a, v)]
  | (b, w) :: rest, a, v =>
    if b < a then (b, w) :: Memory.writeAt rest a v
    else if b = a then if v = Memory.unlisted then rest else (a, v) :: rest
    else if v = Memory.unlisted then (b, w) :: rest else (a, v) :: (b, w) :: rest

/-- Addresses from `lo` on, strictly rising, below 256, no entry equal to an unlisted one. -/
def Memory.wfFrom : Nat → Memory → Bool
  | _, [] => true
  | lo, (a, v) :: rest =>
    decide (lo ≤ a) && decide (a < memSize) && (v != Memory.unlisted) &&
      Memory.wfFrom (a + 1) rest

/-- The canonical form. -/
def Memory.wf (m : Memory) : Bool := Memory.wfFrom 0 m

/-- Store a list of bytes at rising addresses from `a` on. -/
def Memory.writeList : Memory → Nat → List Byte → Memory
  | m, _, [] => m
  | m, a, v :: vs => Memory.writeList (m.writeAt a v) (a + 1) vs

/-- The loader's memory: cleared, then the program copied to address 0 (`20_memory.md` R64). -/
def Memory.ofProgram (p : List Byte) : Memory := Memory.writeList [] 0 p

/-! ## State accessors -/

/-- `x[r]` (R8). -/
def State.reg (s : State) (r : Reg) : Byte := s.regs[r]

/-- `x[r] <- v`: no register is hardwired (`10_state.md` R22). -/
def State.setReg (s : State) (r : Reg) (v : Byte) : State := { s with regs := s.regs.set r v }

/-- `pc` is another name for `x[0]`. -/
abbrev State.pc (s : State) : Byte := s.reg Reg.pc
/-- `sp` is another name for `x[1]`. -/
abbrev State.sp (s : State) : Byte := s.reg Reg.sp
/-- `cc` is another name for `x[2]`. -/
abbrev State.cc (s : State) : Byte := s.reg Reg.cc

/-- `MemRead(a, 1)`: total (R8, `20_memory.md` R60). -/
def State.readMem (s : State) (a : Byte) : Byte := s.mem.readAt a.toNat

/-- `MemWrite(a, 1, v)`: total (R8, `20_memory.md` R60). -/
def State.writeMem (s : State) (a v : Byte) : State := { s with mem := s.mem.writeAt a.toNat v }

/-- Store a list of bytes at `a`, `a +8 1`, and so on. -/
def State.writeBytes : State → Byte → List Byte → State
  | s, _, [] => s
  | s, a, v :: vs => State.writeBytes (s.writeMem a v) (a + 1) vs

/-- `clock <- clock + 1` (R8, `40_execution_cycle.md` R126). -/
def State.tick (s : State) : State := { s with clock := s.clock + 1 }

/-- `status <- st` (R8). -/
def State.setStatus (s : State) (st : RunStatus) : State := { s with status := st }

/-! ## The exception -/

/-- `raise BadInstruction(info)`: the status becomes Faulted and every write already made
stays (`60_exceptions.md` R243). Nothing is saved and nothing is transferred to: there is no
handler, no cause register and no saved PC (R242, R246), and no return from it exists (R249):
only a new load-and-run leaves Faulted. -/
def raiseBadInstruction (info : FaultInfo) (s : State) : State :=
  { s with status := .faulted, faultInfo := some info }

/-! ## The stack (`10_state.md` R28, R33) -/

/-- `sp <- sp -8 1`, the first half of a push. -/
def growStack (s : State) : State := s.setReg Reg.sp (s.sp - 1)

/-- `MemWrite(sp, 1, v)`, the second half of a push. -/
def storeTop (v : Byte) (s : State) : State := s.writeMem s.sp v

/-- `MemRead(sp, 1)`, the first half of a pop. -/
def loadTop (s : State) : Byte := s.readMem s.sp

/-- `sp <- sp +8 1`, the second half of a pop. -/
def shrinkStack (s : State) : State := s.setReg Reg.sp (s.sp + 1)

/-! ## The streams (`10_state.md` R44, R45) -/

/-- The input channel holds `bs`. -/
def State.setInput (s : State) (bs : List Byte) : State := { s with input := bs }

/-- A byte appended to the output. -/
def State.emit (s : State) (b : Byte) : State := { s with output := s.output ++ [b] }

/-- The oracle's next answer is used up. -/
def State.nextAnswer (s : State) : State := { s with outAnswers := s.outAnswers.tail }

/-- `InRead()`: `some b` is `Byte(b)`, `none` is `EOS` (R44). -/
def inRead (s : State) : Option Byte × State :=
  match s.input with
  | [] => (none, s)
  | b :: rest => (some b, s.setInput rest)

/-- The oracle's answer to the next write: success when none is listed (R45). -/
def outOk (s : State) : Bool := s.outAnswers.headD true

/-- `OutWrite(b)`: whether the write succeeded, and the state after it (R45). -/
def outWrite (b : Byte) (s : State) : Bool × State :=
  if outOk s then (true, (s.emit b).nextAnswer) else (false, s.nextAnswer)

end Sys2Proof.Machine
end

