-- ==== Sys2Proof/Machine/Operands.lean ====
section
/-! DEFINITION. The operand forms: the register check made before the execute stage
(`40_execution_cycle.md` R124). Immediate and address bytes are used as fetched
(`30_encoding.md` R93). -/

namespace Sys2Proof.Machine

/-- What a step or an instruction answers. -/
abbrev Answer := Host.Outcome State Fault Refusal

/-- `CheckReg(o)`: the register named, or none when `o` is 12 or more (R124). -/
def checkReg (o : RegByte) : Option Reg :=
  if h : o.toNat < numRegs then some ⟨o.toNat, h⟩ else none

/-- An execute stage with one register operand (shapes R, NR, AR, RA, RN of `30_encoding.md`
R94): a bad one raises BadInstruction and nothing runs. -/
def withReg (o : RegByte) (s : State) (run : Reg → State) : Answer :=
  match checkReg o with
  | none => .next (raiseBadInstruction (.badRegister o) s)
  | some r => .next (run r)

/-- An execute stage with two register operands (shape RR): `o1` is checked before `o2`
(R124, `60_exceptions.md` R245). -/
def withRegs (o1 o2 : RegByte) (s : State) (run : Reg → Reg → State) : Answer :=
  match checkReg o1 with
  | none => .next (raiseBadInstruction (.badRegister o1) s)
  | some a => withReg o2 s (run a)

end Sys2Proof.Machine
end

