-- ==== Sys2Proof/Machine/Arithmetic.lean ====
section
/-! DEFINITION. The meanings of the sixteen arithmetic and bitwise instructions
(`42_arithmetic_bitwise.md`). Binary: `x[dst] <- x[dst] op s`; unary: `x[dst] <- f(s)`
(R161). All reads come before the one write, and CC is never touched (R160, R178). -/

namespace Sys2Proof.Machine

/-- A binary operation, register form. -/
def binaryReg (op : Byte → Byte → Byte) (src dst : RegByte) (s : State) : Answer :=
  withRegs src dst s fun a d => s.setReg d (op (s.reg d) (s.reg a))

/-- A binary operation, immediate form. -/
def binaryImm (op : Byte → Byte → Byte) (n : Imm) (dst : RegByte) (s : State) : Answer :=
  withReg dst s fun d => s.setReg d (op (s.reg d) n)

/-- A unary operation, register form. -/
def unaryReg (f : Byte → Byte) (src dst : RegByte) (s : State) : Answer :=
  withRegs src dst s fun a d => s.setReg d (f (s.reg a))

/-- A unary operation, immediate form. -/
def unaryImm (f : Byte → Byte) (n : Imm) (dst : RegByte) (s : State) : Answer :=
  withReg dst s fun d => s.setReg d (f n)

/-- INC: `x[o2] <- x[o1] +8 1` (R162). -/
def execInc (src dst : RegByte) (s : State) : Answer := unaryReg (fun v => v + 1) src dst s

/-- INCN: `x[o2] <- o1 +8 1` (R163). -/
def execIncn (n : Imm) (dst : RegByte) (s : State) : Answer := unaryImm (fun v => v + 1) n dst s

/-- DEC: `x[o2] <- x[o1] -8 1` (R164). -/
def execDec (src dst : RegByte) (s : State) : Answer := unaryReg (fun v => v - 1) src dst s

/-- DECN: `x[o2] <- o1 -8 1` (R165). -/
def execDecn (n : Imm) (dst : RegByte) (s : State) : Answer := unaryImm (fun v => v - 1) n dst s

/-- ADD: `x[o2] <- x[o2] +8 x[o1]` (R166). -/
def execAdd (src dst : RegByte) (s : State) : Answer := binaryReg (fun d v => d + v) src dst s

/-- ADDN: `x[o2] <- x[o2] +8 o1` (R167). -/
def execAddn (n : Imm) (dst : RegByte) (s : State) : Answer := binaryImm (fun d v => d + v) n dst s

/-- SUB: `x[o2] <- x[o2] -8 x[o1]`, the destination the minuend (R168). -/
def execSub (src dst : RegByte) (s : State) : Answer := binaryReg (fun d v => d - v) src dst s

/-- SUBN: `x[o2] <- x[o2] -8 o1` (R169). -/
def execSubn (n : Imm) (dst : RegByte) (s : State) : Answer := binaryImm (fun d v => d - v) n dst s

/-- AND: `x[o2] <- x[o2] AND x[o1]` (R170). -/
def execAnd (src dst : RegByte) (s : State) : Answer := binaryReg (fun d v => d &&& v) src dst s

/-- ANDN: `x[o2] <- x[o2] AND o1` (R171). -/
def execAndn (n : Imm) (dst : RegByte) (s : State) : Answer :=
  binaryImm (fun d v => d &&& v) n dst s

/-- OR: `x[o2] <- x[o2] OR x[o1]` (R172). -/
def execOr (src dst : RegByte) (s : State) : Answer := binaryReg (fun d v => d ||| v) src dst s

/-- ORN: `x[o2] <- x[o2] OR o1` (R173). -/
def execOrn (n : Imm) (dst : RegByte) (s : State) : Answer :=
  binaryImm (fun d v => d ||| v) n dst s

/-- XOR: `x[o2] <- x[o2] XOR x[o1]` (R174). -/
def execXor (src dst : RegByte) (s : State) : Answer := binaryReg (fun d v => d ^^^ v) src dst s

/-- XORN: `x[o2] <- x[o2] XOR o1` (R175). -/
def execXorn (n : Imm) (dst : RegByte) (s : State) : Answer :=
  binaryImm (fun d v => d ^^^ v) n dst s

/-- NOT: `x[o2] <- x[o1] XOR 0xFF` (R176). -/
def execNot (src dst : RegByte) (s : State) : Answer := unaryReg (fun v => v ^^^ 0xFF) src dst s

/-- NOTN: `x[o2] <- o1 XOR 0xFF` (R177). -/
def execNotn (n : Imm) (dst : RegByte) (s : State) : Answer :=
  unaryImm (fun v => v ^^^ 0xFF) n dst s

end Sys2Proof.Machine
end

