-- ==== Sys2Proof/Machine/Flags.lean ====
section
/-! DEFINITION. The condition codes: what comparisons, tests and I/O write to CC, and the
predicates the conditional jumps read (`10_state.md` R29 to R32). -/

namespace Sys2Proof.Machine

/-- Bit 0 of CC, equal (R29). -/
def maskE : Byte := 0x01
/-- Bit 1 of CC, less-than (R29). -/
def maskL : Byte := 0x02
/-- Bit 2 of CC, end of stream (R29). -/
def maskEOS : Byte := 0x04

/-- The CC a comparison of `u` with `v` leaves: the whole byte, unsigned
(`43_comparison.md` R190, R191). -/
def compareFlags (u v : Byte) : Byte :=
  (if u = v then maskE else 0x00) ||| (if u.toNat < v.toNat then maskL else 0x00)

/-- The CC a test of `u` against zero leaves (`43_comparison.md` R193). -/
def testFlags (u : Byte) : Byte := if u = 0x00 then maskE else 0x00

/-- `cc <- cc OR 0x04` (`45_io.md` R220). -/
def setEos (s : State) : State := s.setReg Reg.cc (s.cc ||| maskEOS)

/-! The predicates of `44_control_transfer.md` R202, as its column "as a test of `cc`". -/

/-- JE. -/
def isEqual (cc : Byte) : Bool := cc &&& 0x01 != 0x00
/-- JNE. -/
def isNotEqual (cc : Byte) : Bool := cc &&& 0x01 == 0x00
/-- JL. -/
def isLess (cc : Byte) : Bool := cc &&& 0x02 != 0x00
/-- JLE. -/
def isLessOrEqual (cc : Byte) : Bool := cc &&& 0x03 != 0x00
/-- JG. -/
def isGreater (cc : Byte) : Bool := cc &&& 0x03 == 0x00
/-- JGE. -/
def isGreaterOrEqual (cc : Byte) : Bool := cc &&& 0x02 == 0x00
/-- JEOF. -/
def isEos (cc : Byte) : Bool := cc &&& 0x04 != 0x00
/-- JNEOF. -/
def isNotEos (cc : Byte) : Bool := cc &&& 0x04 == 0x00

end Sys2Proof.Machine
end

