-- ==== Sys2Proof/Machine/Comparison.lean ====
section
/-! DEFINITION. The meanings of CMP, CMPN and TST (`43_comparison.md`). Operands are read before
CC is written, and nothing but CC is written (R190, R191). -/

namespace Sys2Proof.Machine

/-- CMP: the first operand is `x[o1]`, the second `x[o2]` (R191). -/
def execCmp (a b : RegByte) (s : State) : Answer :=
  withRegs a b s fun ra rb => s.setReg Reg.cc (compareFlags (s.reg ra) (s.reg rb))

/-- CMPN: the first operand is `x[o1]`, the second the immediate `o2` (R192). -/
def execCmpn (a : RegByte) (n : Imm) (s : State) : Answer :=
  withReg a s fun ra => s.setReg Reg.cc (compareFlags (s.reg ra) n)

/-- TST: E when `x[o1]` is zero, every other bit cleared (R193). -/
def execTst (a : RegByte) (s : State) : Answer :=
  withReg a s fun ra => s.setReg Reg.cc (testFlags (s.reg ra))

end Sys2Proof.Machine
end

