-- ==== Sys2Proof/Machine/ControlTransfer.lean ====
section
/-! DEFINITION. The meanings of the jumps, CALL and RET (`44_control_transfer.md`). PC already
holds the address of the next instruction in sequence when they execute, and a target is the
operand byte itself (R200). -/

namespace Sys2Proof.Machine

/-- `if p(cc) then pc <- t` (R201, R202). -/
def jumpIf (p : Byte → Bool) (t : Addr) (s : State) : State :=
  if p s.cc then s.setReg Reg.pc t else s

/-- JMP: `pc <- o1` (R203). -/
def execJmp (t : Addr) (s : State) : Answer := .next (s.setReg Reg.pc t)

/-- JE (R204). -/
def execJe (t : Addr) (s : State) : Answer := .next (jumpIf isEqual t s)

/-- JNE (R205). -/
def execJne (t : Addr) (s : State) : Answer := .next (jumpIf isNotEqual t s)

/-- JL (R206). -/
def execJl (t : Addr) (s : State) : Answer := .next (jumpIf isLess t s)

/-- JLE (R207). -/
def execJle (t : Addr) (s : State) : Answer := .next (jumpIf isLessOrEqual t s)

/-- JG (R208). -/
def execJg (t : Addr) (s : State) : Answer := .next (jumpIf isGreater t s)

/-- JGE (R209). -/
def execJge (t : Addr) (s : State) : Answer := .next (jumpIf isGreaterOrEqual t s)

/-- JEOF (R210). -/
def execJeof (t : Addr) (s : State) : Answer := .next (jumpIf isEos t s)

/-- JNEOF (R211). -/
def execJneof (t : Addr) (s : State) : Answer := .next (jumpIf isNotEos t s)

/-- CALL: `ra <- pc; sp <- sp -8 1; MemWrite(sp, 1, ra); pc <- o1` (R212). -/
def execCall (t : Addr) (s : State) : Answer :=
  .next ((storeTop s.pc (growStack s)).setReg Reg.pc t)

/-- RET: `t <- MemRead(sp, 1); sp <- sp +8 1; pc <- t` (R213). -/
def execRet (s : State) : Answer :=
  .next ((shrinkStack s).setReg Reg.pc (loadTop s))

end Sys2Proof.Machine
end

