-- ==== Sys2Proof/Machine/DataMovement.lean ====
section
/-! DEFINITION. The meanings of MOV, MOVN, LOAD, LOADA, STORE, STOREA, PUSH, PUSHN and POP
(`41_data_movement.md`). -/

namespace Sys2Proof.Machine

/-- MOV: `x[o2] <- x[o1]` (R140). -/
def execMov (src dst : RegByte) (s : State) : Answer :=
  withRegs src dst s fun a d => s.setReg d (s.reg a)

/-- MOVN: `x[o2] <- o1` (R141). -/
def execMovn (n : Imm) (dst : RegByte) (s : State) : Answer :=
  withReg dst s fun d => s.setReg d n

/-- LOAD: `x[o2] <- MemRead(x[o1], 1)` (R142). -/
def execLoad (src dst : RegByte) (s : State) : Answer :=
  withRegs src dst s fun a d => s.setReg d (s.readMem (s.reg a))

/-- LOADA: `x[o2] <- MemRead(o1, 1)` (R143). -/
def execLoada (a : Addr) (dst : RegByte) (s : State) : Answer :=
  withReg dst s fun d => s.setReg d (s.readMem a)

/-- STORE: `MemWrite(x[o2], 1, x[o1])` (R144). -/
def execStore (src dst : RegByte) (s : State) : Answer :=
  withRegs src dst s fun a d => s.writeMem (s.reg d) (s.reg a)

/-- STOREA: `MemWrite(o2, 1, x[o1])` (R145). -/
def execStorea (src : RegByte) (a : Addr) (s : State) : Answer :=
  withReg src s fun r => s.writeMem a (s.reg r)

/-- PUSH: `sp <- sp -8 1; MemWrite(sp, 1, x[o1])`, the source read after the decrement (R146). -/
def execPush (src : RegByte) (s : State) : Answer :=
  withReg src s fun r => storeTop ((growStack s).reg r) (growStack s)

/-- PUSHN: `sp <- sp -8 1; MemWrite(sp, 1, o1)` (R147). -/
def execPushn (n : Imm) (s : State) : Answer :=
  .next (storeTop n (growStack s))

/-- POP: `x[o1] <- MemRead(sp, 1); sp <- sp +8 1`, the increment after the load (R148). -/
def execPop (dst : RegByte) (s : State) : Answer :=
  withReg dst s fun d => shrinkStack (s.setReg d (loadTop s))

end Sys2Proof.Machine
end

