-- ==== Sys2Proof/Machine/InputOutput.lean ====
section
/-! DEFINITION. The meanings of IN, OUT and OUTN (`45_io.md`). End of stream and a failed write
set bit 2 of CC and leave its other bits; success leaves CC alone (R220). -/

namespace Sys2Proof.Machine

/-- `x[o1] <- b` on a byte read; at end of stream `x[o1] <- EOS_BYTE; cc <- cc OR 0x04`, the
register write first (R221). -/
def readInto (d : Reg) (s : State) : State :=
  match inRead s with
  | (some b, s') => s'.setReg d b
  | (none, s') => setEos (s'.setReg d s'.config.eosByte)

/-- The byte offered to the output; a failure sets the flag (R222, R223). -/
def writeOut (b : Byte) (s : State) : State :=
  match outWrite b s with
  | (true, s') => s'
  | (false, s') => setEos s'

/-- IN (R221). -/
def execIn (dst : RegByte) (s : State) : Answer := withReg dst s fun d => readInto d s

/-- OUT: the register is read before anything else happens (R222). -/
def execOut (src : RegByte) (s : State) : Answer := withReg src s fun r => writeOut (s.reg r) s

/-- OUTN (R223). -/
def execOutn (n : Imm) (s : State) : Answer := .next (writeOut n s)

end Sys2Proof.Machine
end

