-- ==== Sys2Proof/Machine/NopHalt.lean ====
section
/-! DEFINITION. The meanings of NOP and HALT (`46_nop_halt.md`). -/

namespace Sys2Proof.Machine

/-- NOP: nothing beyond the step's own effect (R230). -/
def execNop (s : State) : Answer := .next s

/-- HALT: `status <- Halted` (R231). -/
def execHalt (s : State) : Answer := .next (s.setStatus .halted)

end Sys2Proof.Machine
end

