-- ==== Sys2Proof/Machine/Dispatch.lean ====
section
/-! DEFINITION. The execute stage: one arm per instruction (`40_execution_cycle.md` R125). -/

namespace Sys2Proof.Machine

/-- `Execute(mn, o1, o2)`, with the register checks before it (R124, R125). PC is already past
the instruction's bytes. -/
def exec (i : Instr) (s : State) : Host.Outcome State Fault Refusal :=
  match i with
  | .mov src dst => Sys2Proof.Machine.execMov src dst s
  | .movn n dst => Sys2Proof.Machine.execMovn n dst s
  | .load src dst => Sys2Proof.Machine.execLoad src dst s
  | .loada a dst => Sys2Proof.Machine.execLoada a dst s
  | .store src dst => Sys2Proof.Machine.execStore src dst s
  | .storea src a => Sys2Proof.Machine.execStorea src a s
  | .push src => Sys2Proof.Machine.execPush src s
  | .pushn n => Sys2Proof.Machine.execPushn n s
  | .pop dst => Sys2Proof.Machine.execPop dst s
  | .inc src dst => Sys2Proof.Machine.execInc src dst s
  | .incn n dst => Sys2Proof.Machine.execIncn n dst s
  | .dec src dst => Sys2Proof.Machine.execDec src dst s
  | .decn n dst => Sys2Proof.Machine.execDecn n dst s
  | .add src dst => Sys2Proof.Machine.execAdd src dst s
  | .addn n dst => Sys2Proof.Machine.execAddn n dst s
  | .sub src dst => Sys2Proof.Machine.execSub src dst s
  | .subn n dst => Sys2Proof.Machine.execSubn n dst s
  | .and src dst => Sys2Proof.Machine.execAnd src dst s
  | .andn n dst => Sys2Proof.Machine.execAndn n dst s
  | .or src dst => Sys2Proof.Machine.execOr src dst s
  | .orn n dst => Sys2Proof.Machine.execOrn n dst s
  | .xor src dst => Sys2Proof.Machine.execXor src dst s
  | .xorn n dst => Sys2Proof.Machine.execXorn n dst s
  | .not src dst => Sys2Proof.Machine.execNot src dst s
  | .notn n dst => Sys2Proof.Machine.execNotn n dst s
  | .cmp a b => Sys2Proof.Machine.execCmp a b s
  | .cmpn a n => Sys2Proof.Machine.execCmpn a n s
  | .tst a => Sys2Proof.Machine.execTst a s
  | .jmp t => Sys2Proof.Machine.execJmp t s
  | .je t => Sys2Proof.Machine.execJe t s
  | .jne t => Sys2Proof.Machine.execJne t s
  | .jl t => Sys2Proof.Machine.execJl t s
  | .jle t => Sys2Proof.Machine.execJle t s
  | .jg t => Sys2Proof.Machine.execJg t s
  | .jge t => Sys2Proof.Machine.execJge t s
  | .jeof t => Sys2Proof.Machine.execJeof t s
  | .jneof t => Sys2Proof.Machine.execJneof t s
  | .call t => Sys2Proof.Machine.execCall t s
  | .ret => Sys2Proof.Machine.execRet s
  | .inp dst => Sys2Proof.Machine.execIn dst s
  | .out src => Sys2Proof.Machine.execOut src s
  | .outn n => Sys2Proof.Machine.execOutn n s
  | .nop => Sys2Proof.Machine.execNop s
  | .halt => Sys2Proof.Machine.execHalt s

end Sys2Proof.Machine
end

