-- ==== Sys2Proof/Machine/Fetch.lean ====
section
/-! DEFINITION. Fetching an instruction: one byte at a time from memory at PC, PC advancing with
each (`40_execution_cycle.md` R120 to R123). -/

namespace Sys2Proof.Machine

/-- `Fetch()`: `b <- MemRead(pc, 1); pc <- pc +8 1; return b` (R121). -/
def fetchByte (s : State) : Byte × State := (s.readMem s.pc, s.setReg Reg.pc (s.pc + 1))

/-- A number of fetches in order. -/
def fetchBytes : Nat → State → List Byte × State
  | 0, s => ([], s)
  | n + 1, s =>
    ((fetchByte s).1 :: (fetchBytes n (fetchByte s).2).1, (fetchBytes n (fetchByte s).2).2)

/-- Fetch the opcode, count it, decode it, fetch the operands (R120). `.error op` is an unknown
opcode, for which no operand byte is fetched (R123). -/
def fetchInstr (map : OpcodeMap) (s : State) : Except Byte Instr × State :=
  match decodeOpcode map (fetchByte s).1 with
  | none => (.error (fetchByte s).1, (fetchByte s).2.tick)
  | some m =>
    (.ok (m.build (fetchBytes m.arity (fetchByte s).2.tick).1),
      (fetchBytes m.arity (fetchByte s).2.tick).2)

end Sys2Proof.Machine
end

