-- ==== Sys2Proof/Machine/Step.lean ====
section
/-! DEFINITION. One step of the core (`40_execution_cycle.md` R120). -/

namespace Sys2Proof.Machine

/-- The step under an opcode map. While the status is Running: fetch, decode, check, execute.
In any other status the core takes no step and no state changes (`10_state.md` R42): the state
answers itself (DESIGN CHOICE, notes/assumptions/2.md; safe). -/
def stepWith (map : OpcodeMap) (s : State) : Host.Outcome State Fault Refusal :=
  match s.status with
  | .running =>
    match fetchInstr map s with
    | (.error op, s') => .next (raiseBadInstruction (.unknownOpcode op) s')
    | (.ok i, s') => exec i s'
  | .idle => .next s
  | .halted => .next s
  | .faulted => .next s

/-- The step under the default opcode map. -/
def step : State → Host.Outcome State Fault Refusal := stepWith opcodeMap

/-- The bytes of a word of the opcode table stored at PC, and the core running: stands for a
program loaded from outside (notes/assumptions/1.md). -/
def State.withFetchWord (s : State) (nbits w : Nat) : State :=
  (s.writeBytes s.pc (tableBytes nbits w)).setStatus .running

end Sys2Proof.Machine
end

