-- ==== Sys2Proof/Machine/HostCommands.lean ====
section
/-! DEFINITION. What the host can do to the core: load-and-run, `clock()` and `dump()`
(`70_reset_and_hazards.md` R272 to R279). No step calls any of it. -/

namespace Sys2Proof.Machine

/-- The three results of load-and-run (`60_exceptions.md` R252). -/
inductive RunResult where
  | success
  | badInstruction
  | programTooLarge
  deriving DecidableEq, Repr

/-- The state at the first step of an accepted load-and-run (`10_state.md` R51): registers
zeroed, memory cleared and the program copied, clock 0, Running. The streams stay (R46). The
diagnostic of an earlier run is cleared with it (notes/assumptions/4.md). -/
def loadedState (p : List Byte) (s : State) : State :=
  { s with
    regs := zeroRegs
    mem := Memory.ofProgram p
    clock := 0
    status := .running
    faultInfo := none }

/-- The opening of load-and-run: the length check before everything, then the reset (R272,
R273). On `.fault .programTooLarge` nothing has been touched: the core is still in the state
the command found. The command cannot be given during a run (R276). -/
def loadProgram (p : List Byte) (s : State) : Host.Outcome State Fault Refusal :=
  if s.status = .running then .refused .runInProgress
  else if p.length > memSize then .fault .programTooLarge
  else .next (loadedState p s)

/-- What load-and-run returns once the status has left Running (R272). -/
def runResult (s : State) : Option RunResult :=
  match s.status with
  | .halted => some .success
  | .faulted => some .badInstruction
  | .running => none
  | .idle => none

/-- Load-and-run watched for `fuel` steps: the result and the state then. No result means the
run has not returned within them (`40_execution_cycle.md` R127; notes/assumptions/30.md), or
that the command could not be given. -/
def loadAndRun (fuel : Nat) (p : List Byte) (s : State) : Option RunResult × State :=
  match loadProgram p s with
  | .fault .programTooLarge => (some .programTooLarge, s)
  | .refused _ => (none, s)
  | .next s0 =>
    match Host.Core.run Sys2Proof.core fuel s0 with
    | .next t => (runResult t, t)
    | .fault _ => (none, s0)
    | .refused _ => (none, s0)

/-- The environment hands over streams between runs: the bytes to be read, an empty output, and
the oracle's answers (`10_state.md` R44 to R46). Not during a run. -/
def attachStreams (input : List Byte) (answers : List Bool) (s : State) :
    Host.Outcome State Fault Refusal :=
  if s.status = .running then .refused .runInProgress
  else .next { s with input := input, output := [], outAnswers := answers }

/-- `clock()`: a pure read, when no run is in progress (R278). -/
def hostClock (s : State) : Option Nat :=
  if s.status = .running then none else some s.clock

/-- `dump()`: the twelve register bytes and the 256 memory bytes, when no run is in progress
(R279). The text format is out of scope (`00_scope.md` R4). -/
def hostDump (s : State) : Option (List Byte × List Byte) :=
  if s.status = .running then none
  else some (s.regs.toList, (List.range memSize).map fun a => s.mem.readAt a)

end Sys2Proof.Machine
end

