-- ==== Sys2Proof/Safety.lean ====
section
/-! DEFINITION. What counts as a safe run, and the vocabulary claims are stated in: what an
instruction may write (the tables of `10_state.md` section 1 and `20_memory.md` R61), frames,
the invariant of the machine, and runs of many steps. -/

namespace Sys2Proof

/-! ## What an instruction names and may write -/

/-- The register operand an instruction names as its destination, its explicit result. -/
def Instr.dst? : Instr → Option RegByte
  | .mov _ d | .movn _ d | .load _ d | .loada _ d | .inc _ d | .incn _ d | .dec _ d
  | .decn _ d | .add _ d | .addn _ d | .sub _ d | .subn _ d | .and _ d | .andn _ d
  | .or _ d | .orn _ d | .xor _ d | .xorn _ d | .not _ d | .notn _ d
  | .pop d | .inp d => some d
  | .store _ _ | .storea _ _ | .push _ | .pushn _ | .cmp _ _ | .cmpn _ _ | .tst _
  | .jmp _ | .je _ | .jne _ | .jl _ | .jle _ | .jg _ | .jge _ | .jeof _ | .jneof _
  | .call _ | .ret | .out _ | .outn _ | .nop | .halt => none

/-- CMP, CMPN and TST (`43_comparison.md`). -/
def Instr.isComparison (i : Instr) : Bool :=
  match i.mnemonic with
  | .cmp | .cmpn | .tst => true
  | _ => false

/-- IN, OUT and OUTN (`45_io.md`). -/
def Instr.isIO (i : Instr) : Bool :=
  match i.mnemonic with
  | .inp | .out | .outn => true
  | _ => false

/-- The registers the execute stage may write besides the named destination: the last column of
the table in `10_state.md` section 1, less the fetches. -/
def Instr.implicitWrites (i : Instr) : List Reg :=
  match i.mnemonic with
  | .push | .pushn | .pop => [Reg.sp]
  | .call | .ret => [Reg.pc, Reg.sp]
  | .jmp | .je | .jne | .jl | .jle | .jg | .jge | .jeof | .jneof => [Reg.pc]
  | .cmp | .cmpn | .tst | .inp | .out | .outn => [Reg.cc]
  | _ => []

/-- Whether the instruction transfers control when CC holds `cc`: a jump that is taken, CALL
or RET (`44_control_transfer.md` R201, R202). -/
def Instr.transfers (cc : Byte) : Instr → Bool
  | .jmp _ | .call _ | .ret => true
  | .je _ => cc.getLsbD 0
  | .jne _ => !cc.getLsbD 0
  | .jl _ => cc.getLsbD 1
  | .jle _ => cc.getLsbD 1 || cc.getLsbD 0
  | .jg _ => !cc.getLsbD 1 && !cc.getLsbD 0
  | .jge _ => !cc.getLsbD 1
  | .jeof _ => cc.getLsbD 2
  | .jneof _ => !cc.getLsbD 2
  | _ => false

/-- The operand bytes with their kinds, in fetch order (`30_encoding.md` R93, R94). -/
def Instr.kindedOperands (i : Instr) : List (OperandKind × Byte) :=
  i.mnemonic.kinds.zip i.operands

/-- The first operand byte that fails its register check, if any (`40_execution_cycle.md`
R124: `o1` before `o2`). -/
def Instr.firstBadOperand (i : Instr) : Option Byte :=
  (i.kindedOperands.find? fun p => p.1 == .reg && decide (numRegs ≤ p.2.toNat)).map Prod.snd

namespace Machine

/-- The address an instruction stores to in state `s`, when it stores (`20_memory.md` R61): a
form whose register check fails stores nothing. -/
def storeTarget (s : State) : Instr → Option Byte
  | .store a d => if RegByte.ok a then (checkReg d).map s.reg else none
  | .storea r a => if RegByte.ok r then some a else none
  | .push r => if RegByte.ok r then some (growStack s).sp else none
  | .pushn _ | .call _ => some (growStack s).sp
  | _ => none

/-! ## Frames -/

/-- Every register but those listed is unchanged. -/
def SameRegsBut (ds : List Reg) (s t : State) : Prop := ∀ r, r ∉ ds → t.reg r = s.reg r

/-- Every byte of memory reads as before. -/
def SameMemory (s t : State) : Prop := ∀ a : Byte, t.readMem a = s.readMem a

/-- Every byte of memory but the one at `a` reads as before. -/
def SameMemoryBut (a : Byte) (s t : State) : Prop := ∀ b : Byte, b ≠ a → t.readMem b = s.readMem b

/-- Both streams and the oracle's answers are unchanged. -/
def SameStreams (s t : State) : Prop :=
  t.input = s.input ∧ t.output = s.output ∧ t.outAnswers = s.outAnswers

/-- The clock, the status, the diagnostic and the parameters are unchanged. -/
def SameControl (s t : State) : Prop :=
  t.clock = s.clock ∧ t.status = s.status ∧ t.faultInfo = s.faultInfo ∧ t.config = s.config

/-- `d` holds `v`, and nothing else has changed. -/
def WritesOnly (d : Reg) (v : Byte) (s t : State) : Prop :=
  t.reg d = v ∧ SameRegsBut [d] s t ∧ SameMemory s t ∧ SameStreams s t ∧ SameControl s t

/-- Address `a` holds `v`, and nothing else has changed. -/
def StoresOnly (a v : Byte) (s t : State) : Prop :=
  t.readMem a = v ∧ SameMemoryBut a s t ∧ SameRegsBut [] s t ∧ SameStreams s t ∧ SameControl s t

/-- PC holds `t` when `taken`, else nothing; nothing but PC has changed. -/
def JumpsIf (taken : Bool) (target : Byte) (s t : State) : Prop :=
  t.pc = (if taken then target else s.pc) ∧ SameRegsBut [Reg.pc] s t ∧ SameMemory s t ∧
    SameStreams s t ∧ SameControl s t

/-- BadInstruction was taken for the operand byte `o`, and nothing else has changed
(`60_exceptions.md` R243). -/
def BadRegisterTaken (o : Byte) (s t : State) : Prop :=
  t.status = .faulted ∧ t.faultInfo = some (.badRegister o) ∧ SameRegsBut [] s t ∧
    SameMemory s t ∧ SameStreams s t ∧ t.clock = s.clock ∧ t.config = s.config

/-! ## Runs and safety -/

/-- `k` steps of the core. -/
abbrev run (k : Nat) (s : State) : Host.Outcome State Fault Refusal :=
  Host.Core.run Sys2Proof.core k s

/-- The invariant of the machine: memory is in its canonical form, and the diagnostic is there
exactly when the run has faulted. -/
abbrev Inv (s : State) : Prop :=
  s.mem.wf = true ∧ (s.status = .faulted ↔ s.faultInfo.isSome = true)

/-- A safe run of `k` steps: no state along it has faulted. -/
def SafeFor (k : Nat) (s : State) : Prop :=
  ∀ j, j ≤ k → ∀ t, run j s = .next t → t.status ≠ .faulted

end Machine

end Sys2Proof
end

