-- ==== Sys2Proof/Certificates/Slice0/Obligations.lean ====
section
/-! DEFINITION. The statements for the provers. Each docstring names the sentence of the spec it
formalises, and says where it rests on a decision the spec marks as its own. Register operands
are written `r.toByte` for a register `r`, so `∀ r : Reg` is every legal operand byte, indices
0 to 3 (PC, SP, CC, XR) among them; the operand bytes of 12 and more are the subject of
`BadOperandTakesException`. Execute-stage statements are about `exec i s`, where PC already
holds the address of the next instruction (`40_execution_cycle.md` R125). -/

open Sys2Proof Sys2Proof.Machine

/-! ## Encoding and fetching -/

/-- `30_encoding.md` sections 1 to 3: no bit of an encoding is dropped, for every injective
`OPCODE_MAP`; the default map (the spec's decision D1, notes/assumptions/9.md) is one. -/
def Obligations.DecodeOfEncode : Prop :=
  (∀ map : OpcodeMap, (∀ m n, map m = map n → m = n) → ∀ (i : Instr) (rest : List Byte),
    decodeWith map (encodeWith map i ++ rest) = .instr i rest) ∧
  (∀ m n, opcodeMap m = opcodeMap n → m = n)

/-- `30_encoding.md` R91, R100: each word that decodes has one encoding, its own bytes. -/
def Obligations.EncodeOfDecode : Prop :=
  ∀ (map : OpcodeMap) (bytes : List Byte) (i : Instr) (rest : List Byte),
    decodeWith map bytes = .instr i rest → bytes = encodeWith map i ++ rest

/-- Words of `30_encoding.md` R96 and of the worked examples; opcode values are the spec's
decision D1 (notes/assumptions/9.md). -/
def Obligations.DecodesSampleWords : Prop :=
  decode [0x00, 0x04, 0x05] = .instr (.mov 4 5) [] ∧
  decode [0x05, 0x04, 0x80] = .instr (.storea 4 0x80) [] ∧
  decode [0x10, 0x01, 0x04] = .instr (.subn 1 4) [] ∧
  decode [0x1A, 0x04, 0x05] = .instr (.cmpn 4 5) [] ∧
  decode [0x25, 0x0A] = .instr (.call 0x0A) [] ∧
  decode [0x27, 0x04, 0x23] = .instr (.inp 4) [0x23] ∧
  decode [0x2B] = .instr .halt [] ∧
  decode [0x2C] = .unknownOpcode 0x2C

/-- `40_execution_cycle.md` R120: a step runs the instruction its bytes decode to, with PC past
them and the fetch counted. -/
def Obligations.StepRunsDecodedInstruction : Prop :=
  ∀ (s : State) (i : Instr) (rest : List Byte), s.status = .running →
    decode [s.readMem s.pc, s.readMem (s.pc + 1), s.readMem (s.pc + 2)] = .instr i rest →
    step s = exec i (s.setReg Reg.pc (s.pc + BitVec.ofNat 8 (encode i).length)).tick

/-- `10_state.md` R25: every fetch advances PC by one; the execute stage starts with PC past the
instruction; what neither faults nor transfers control, nor names PC as its destination, leaves
it there; a transfer, or MOV or MOVN into PC, replaces that value. Which conditional jumps
transfer is the spec's decision D7 (notes/assumptions/14.md), and that PC may be a destination is
D21 (notes/assumptions/22.md). The other writes to PC as a destination are clauses of LoadResults,
PopResult, AddResults to NotResults and InResults. -/
def Obligations.FetchAdvancesPc : Prop :=
  (∀ s : State, (fetchByte s).1 = s.readMem s.pc ∧ (fetchByte s).2.pc = s.pc + 1) ∧
  (∀ (map : OpcodeMap) (s : State) (i : Instr) (s' : State), s.status = .running →
    fetchInstr map s = (.ok i, s') →
    s'.pc = s.pc + BitVec.ofNat 8 (1 + i.mnemonic.arity) ∧ stepWith map s = exec i s' ∧
    ∀ t : State, stepWith map s = .next t → t.status ≠ .faulted →
      (i.transfers s'.cc = false → i.dst? ≠ some Reg.pc.toByte →
        t.pc = s.pc + BitVec.ofNat 8 (1 + i.mnemonic.arity)) ∧
      (i.transfers s'.cc = true → i ≠ .ret → i.operands = [t.pc]) ∧
      (i = .ret → t.pc = s'.readMem s'.sp) ∧
      (∀ v, i = .movn v Reg.pc.toByte → t.pc = v) ∧
      (∀ a : Reg, i = .mov a.toByte Reg.pc.toByte → t.pc = s'.reg a))

/-! ## Data movement -/

/-- R140 MOV, R141 MOVN: the destination takes the value, nothing else changes. -/
def Obligations.MovResults : Prop :=
  ∀ (s : State) (a d : Reg) (n : Imm),
    (∃ t, exec (.mov a.toByte d.toByte) s = .next t ∧ WritesOnly d (s.reg a) s t) ∧
    (∃ t, exec (.movn n d.toByte) s = .next t ∧ WritesOnly d n s t)

/-- R142 LOAD, R143 LOADA; the forms and their operand order are the spec's decision D3
(notes/assumptions/10.md). -/
def Obligations.LoadResults : Prop :=
  ∀ (s : State) (a d : Reg) (x : Addr),
    (∃ t, exec (.load a.toByte d.toByte) s = .next t ∧
      WritesOnly d (s.readMem (s.reg a)) s t) ∧
    (∃ t, exec (.loada x d.toByte) s = .next t ∧ WritesOnly d (s.readMem x) s t)

/-- R144 STORE, R145 STOREA; the forms and their operand order are the spec's decision D3
(notes/assumptions/10.md). -/
def Obligations.StoreResults : Prop :=
  ∀ (s : State) (a d : Reg) (x : Addr), s.mem.wf = true →
    (∃ t, exec (.store a.toByte d.toByte) s = .next t ∧ StoresOnly (s.reg d) (s.reg a) s t) ∧
    (∃ t, exec (.storea a.toByte x) s = .next t ∧ StoresOnly x (s.reg a) s t)

/-- R146 PUSH, R147 PUSHN: SP goes down by one and the byte stands at the new SP; `PUSH SP`
stores the decremented SP (the spec's decision D16, notes/assumptions/20.md). -/
def Obligations.PushResults : Prop :=
  ∀ (s : State) (r : Reg) (n : Imm), s.mem.wf = true →
    (∃ t, exec (.push r.toByte) s = .next t ∧ t.sp = s.sp - 1 ∧
      t.readMem (s.sp - 1) = (if r = Reg.sp then s.sp - 1 else s.reg r) ∧
      SameRegsBut [Reg.sp] s t ∧ SameMemoryBut (s.sp - 1) s t ∧ SameStreams s t ∧
      SameControl s t) ∧
    (∃ t, exec (.pushn n) s = .next t ∧ t.sp = s.sp - 1 ∧ t.readMem (s.sp - 1) = n ∧
      SameRegsBut [Reg.sp] s t ∧ SameMemoryBut (s.sp - 1) s t ∧ SameStreams s t ∧
      SameControl s t)

/-- R148 POP: load, then SP goes up by one; `POP SP` increments the loaded value (the spec's
decision D16, notes/assumptions/20.md). -/
def Obligations.PopResult : Prop :=
  ∀ (s : State) (d : Reg),
    ∃ t, exec (.pop d.toByte) s = .next t ∧
      (d ≠ Reg.sp → t.reg d = s.readMem s.sp ∧ t.sp = s.sp + 1) ∧
      (d = Reg.sp → t.sp = s.readMem s.sp + 1) ∧
      SameRegsBut [d, Reg.sp] s t ∧ SameMemory s t ∧ SameStreams s t ∧ SameControl s t

/-- `41_data_movement.md` R147 and `95_test_vectors.md` S6: a push then a pop gives the value
back and restores SP. -/
def Obligations.PushThenPop : Prop :=
  ∀ (s : State) (n : Imm) (r d : Reg), s.mem.wf = true → d ≠ Reg.sp →
    (∃ t u, exec (.pushn n) s = .next t ∧ exec (.pop d.toByte) t = .next u ∧
      u.reg d = n ∧ u.sp = s.sp ∧ SameRegsBut [d] s u) ∧
    (r ≠ Reg.sp → ∃ t u, exec (.push r.toByte) s = .next t ∧ exec (.pop d.toByte) t = .next u ∧
      u.reg d = s.reg r ∧ u.sp = s.sp ∧ SameRegsBut [d] s u)

/-! ## Arithmetic and bitwise -/

/-- R166 ADD, R167 ADDN: the sum modulo 256 (R160), no other effect and CC among what is
unchanged. -/
def Obligations.AddResults : Prop :=
  ∀ (s : State) (a d : Reg) (n : Imm),
    (∃ t, exec (.add a.toByte d.toByte) s = .next t ∧
      (t.reg d).toNat = ((s.reg d).toNat + (s.reg a).toNat) % 256 ∧
      WritesOnly d (t.reg d) s t) ∧
    (∃ t, exec (.addn n d.toByte) s = .next t ∧
      (t.reg d).toNat = ((s.reg d).toNat + n.toNat) % 256 ∧ WritesOnly d (t.reg d) s t)

/-- SUB, SUBN: destination minus source modulo 256; the direction is the spec's decision D5
(notes/assumptions/12.md). -/
def Obligations.SubResults : Prop :=
  ∀ (s : State) (a d : Reg) (n : Imm),
    (∃ t, exec (.sub a.toByte d.toByte) s = .next t ∧
      (t.reg d).toNat = ((s.reg d).toNat + 256 - (s.reg a).toNat) % 256 ∧
      WritesOnly d (t.reg d) s t) ∧
    (∃ t, exec (.subn n d.toByte) s = .next t ∧
      (t.reg d).toNat = ((s.reg d).toNat + 256 - n.toNat) % 256 ∧ WritesOnly d (t.reg d) s t)

/-- INC, INCN, DEC, DECN: source plus or minus one modulo 256 into the destination; the
two-operand shape is the spec's decision D4 (notes/assumptions/11.md). -/
def Obligations.IncDecResults : Prop :=
  ∀ (s : State) (a d : Reg) (n : Imm),
    (∃ t, exec (.inc a.toByte d.toByte) s = .next t ∧
      (t.reg d).toNat = ((s.reg a).toNat + 1) % 256 ∧ WritesOnly d (t.reg d) s t) ∧
    (∃ t, exec (.incn n d.toByte) s = .next t ∧
      (t.reg d).toNat = (n.toNat + 1) % 256 ∧ WritesOnly d (t.reg d) s t) ∧
    (∃ t, exec (.dec a.toByte d.toByte) s = .next t ∧
      (t.reg d).toNat = ((s.reg a).toNat + 255) % 256 ∧ WritesOnly d (t.reg d) s t) ∧
    (∃ t, exec (.decn n d.toByte) s = .next t ∧
      (t.reg d).toNat = (n.toNat + 255) % 256 ∧ WritesOnly d (t.reg d) s t)

/-- R170 to R175 AND, ANDN, OR, ORN, XOR, XORN: bit by bit (R160; the standard meanings are
PRESUMED by the spec, notes/assumptions/31.md). -/
def Obligations.BitwiseResults : Prop :=
  ∀ (s : State) (a d : Reg) (n : Imm),
    (∃ t, exec (.and a.toByte d.toByte) s = .next t ∧ WritesOnly d (t.reg d) s t ∧
      ∀ k, (t.reg d).getLsbD k = ((s.reg d).getLsbD k && (s.reg a).getLsbD k)) ∧
    (∃ t, exec (.andn n d.toByte) s = .next t ∧ WritesOnly d (t.reg d) s t ∧
      ∀ k, (t.reg d).getLsbD k = ((s.reg d).getLsbD k && n.getLsbD k)) ∧
    (∃ t, exec (.or a.toByte d.toByte) s = .next t ∧ WritesOnly d (t.reg d) s t ∧
      ∀ k, (t.reg d).getLsbD k = ((s.reg d).getLsbD k || (s.reg a).getLsbD k)) ∧
    (∃ t, exec (.orn n d.toByte) s = .next t ∧ WritesOnly d (t.reg d) s t ∧
      ∀ k, (t.reg d).getLsbD k = ((s.reg d).getLsbD k || n.getLsbD k)) ∧
    (∃ t, exec (.xor a.toByte d.toByte) s = .next t ∧ WritesOnly d (t.reg d) s t ∧
      ∀ k, (t.reg d).getLsbD k = ((s.reg d).getLsbD k ^^ (s.reg a).getLsbD k)) ∧
    (∃ t, exec (.xorn n d.toByte) s = .next t ∧ WritesOnly d (t.reg d) s t ∧
      ∀ k, (t.reg d).getLsbD k = ((s.reg d).getLsbD k ^^ n.getLsbD k))

/-- NOT, NOTN: 255 minus the source (R160); that NOT is the standard one's complement is PRESUMED
by the spec (notes/assumptions/31.md), and the two-operand shape is its decision D4
(notes/assumptions/11.md). -/
def Obligations.NotResults : Prop :=
  ∀ (s : State) (a d : Reg) (n : Imm),
    (∃ t, exec (.not a.toByte d.toByte) s = .next t ∧
      (t.reg d).toNat = 255 - (s.reg a).toNat ∧ WritesOnly d (t.reg d) s t) ∧
    (∃ t, exec (.notn n d.toByte) s = .next t ∧
      (t.reg d).toNat = 255 - n.toNat ∧ WritesOnly d (t.reg d) s t)

/-! ## Comparison and control transfer -/

/-- R190 to R193 CMP, CMPN, TST: the whole of CC is overwritten, E when equal, L when the first
operand is smaller as a natural number, bits 7:2 zero; that the first fetched operand is the
first of the comparison is the spec's decision D6 (notes/assumptions/13.md). -/
def Obligations.ComparisonResults : Prop :=
  ∀ (s : State) (a b : Reg) (n : Imm),
    (∃ t v, exec (.cmp a.toByte b.toByte) s = .next t ∧ WritesOnly Reg.cc v s t ∧
      (v = 0x01 ↔ s.reg a = s.reg b) ∧ (v = 0x02 ↔ (s.reg a).toNat < (s.reg b).toNat) ∧
      (v = 0x00 ↔ (s.reg b).toNat < (s.reg a).toNat)) ∧
    (∃ t v, exec (.cmpn a.toByte n) s = .next t ∧ WritesOnly Reg.cc v s t ∧
      (v = 0x01 ↔ s.reg a = n) ∧ (v = 0x02 ↔ (s.reg a).toNat < n.toNat) ∧
      (v = 0x00 ↔ n.toNat < (s.reg a).toNat)) ∧
    (∃ t v, exec (.tst a.toByte) s = .next t ∧ WritesOnly Reg.cc v s t ∧
      (v = 0x01 ↔ s.reg a = 0x00) ∧ (v = 0x00 ↔ s.reg a ≠ 0x00))

/-- R203 to R211: where each jump goes, by the bits of CC, and that nothing but PC changes; the
predicates other than JG and JEOF are the spec's decision D7 (notes/assumptions/14.md). -/
def Obligations.JumpResults : Prop :=
  ∀ (s : State) (x : Addr),
    let e := s.cc.getLsbD 0
    let l := s.cc.getLsbD 1
    let eos := s.cc.getLsbD 2
    (∃ t, exec (.jmp x) s = .next t ∧ JumpsIf true x s t) ∧
    (∃ t, exec (.je x) s = .next t ∧ JumpsIf e x s t) ∧
    (∃ t, exec (.jne x) s = .next t ∧ JumpsIf (!e) x s t) ∧
    (∃ t, exec (.jl x) s = .next t ∧ JumpsIf l x s t) ∧
    (∃ t, exec (.jle x) s = .next t ∧ JumpsIf (l || e) x s t) ∧
    (∃ t, exec (.jg x) s = .next t ∧ JumpsIf (!l && !e) x s t) ∧
    (∃ t, exec (.jge x) s = .next t ∧ JumpsIf (!l) x s t) ∧
    (∃ t, exec (.jeof x) s = .next t ∧ JumpsIf eos x s t) ∧
    (∃ t, exec (.jneof x) s = .next t ∧ JumpsIf (!eos) x s t)

/-- `43_comparison.md` R194: what each conditional jump does right after a comparison of `u`
with `v`. -/
def Obligations.CompareThenJump : Prop :=
  ∀ (s : State) (a b : Reg) (x : Addr),
    let u := (s.reg a).toNat
    let v := (s.reg b).toNat
    ∃ t, exec (.cmp a.toByte b.toByte) s = .next t ∧
      (∃ w, exec (.je x) t = .next w ∧ JumpsIf (decide (u = v)) x t w) ∧
      (∃ w, exec (.jne x) t = .next w ∧ JumpsIf (decide (u ≠ v)) x t w) ∧
      (∃ w, exec (.jl x) t = .next w ∧ JumpsIf (decide (u < v)) x t w) ∧
      (∃ w, exec (.jle x) t = .next w ∧ JumpsIf (decide (u ≤ v)) x t w) ∧
      (∃ w, exec (.jg x) t = .next w ∧ JumpsIf (decide (v < u)) x t w) ∧
      (∃ w, exec (.jge x) t = .next w ∧ JumpsIf (decide (v ≤ u)) x t w) ∧
      (∃ w, exec (.jeof x) t = .next w ∧ JumpsIf false x t w) ∧
      (∃ w, exec (.jneof x) t = .next w ∧ JumpsIf true x t w)

/-- R212 CALL, R213 RET: CALL pushes the address of the byte after its operand and jumps; RET
pops the byte at SP into PC. -/
def Obligations.CallRetResults : Prop :=
  ∀ (s : State) (x : Addr), s.mem.wf = true →
    (∃ t, exec (.call x) s = .next t ∧ t.pc = x ∧ t.sp = s.sp - 1 ∧
      t.readMem (s.sp - 1) = s.pc ∧ SameRegsBut [Reg.pc, Reg.sp] s t ∧
      SameMemoryBut (s.sp - 1) s t ∧ SameStreams s t ∧ SameControl s t) ∧
    (∃ t, exec .ret s = .next t ∧ t.pc = s.readMem s.sp ∧ t.sp = s.sp + 1 ∧
      SameRegsBut [Reg.pc, Reg.sp] s t ∧ SameMemory s t ∧ SameStreams s t ∧ SameControl s t)

/-- `95_test_vectors.md` S7: a RET reached with SP and the byte at SP as CALL left them resumes
after the call's operand, with SP restored. -/
def Obligations.CallThenRet : Prop :=
  ∀ (s : State) (x : Addr), s.mem.wf = true →
    ∃ t, exec (.call x) s = .next t ∧ t.pc = x ∧
      ∀ u : State, u.sp = t.sp → u.readMem u.sp = t.readMem t.sp →
        ∃ v, exec .ret u = .next v ∧ v.pc = s.pc ∧ v.sp = s.sp ∧ SameRegsBut [Reg.pc, Reg.sp] u v

/-- A CALL fetched at PC, as one step of the core: the return address stored is the address
after the operand, two past the opcode (`90_conflicts.md` C3), PC is the operand byte, and the
fetch is counted. For every injective opcode map. -/
def Obligations.CallStep : Prop :=
  ∀ (map : OpcodeMap) (s : State), (∀ m n, map m = map n → m = n) → s.mem.wf = true →
    s.status = .running → s.readMem s.pc = map .call →
    ∃ t, stepWith map s = .next t ∧ t.pc = s.readMem (s.pc + 1) ∧ t.sp = s.sp - 1 ∧
      t.readMem (s.sp - 1) = s.pc + 2 ∧ t.clock = s.clock + 1 ∧ t.status = .running ∧
      SameRegsBut [Reg.pc, Reg.sp] s t ∧ SameMemoryBut (s.sp - 1) s t ∧ SameStreams s t

/-- R200: a target is the operand byte itself, any byte value, and the next opcode is fetched
from there. Which conditional jumps are taken is the spec's decision D7
(notes/assumptions/14.md). -/
def Obligations.TargetIsOperandByte : Prop :=
  ∀ (s t : State) (i : Instr) (x : Addr),
    i ∈ [.jmp x, .je x, .jne x, .jl x, .jle x, .jg x, .jge x, .jeof x, .jneof x, .call x] →
    i.transfers s.cc = true → exec i s = .next t →
    t.pc = x ∧ (fetchByte t).1 = t.readMem x

/-! ## Input, output, no-op, halt -/

/-- R221 IN: a byte read goes to the destination; at end of stream the destination takes
`EOS_BYTE` and then the flag is set. Holds for every `EOS_BYTE`; the stream's form, what I/O
does to CC and the order of the two writes are the spec's decisions D10, D8, D16
(notes/assumptions/5.md, 8.md, 15.md, 20.md). -/
def Obligations.InResults : Prop :=
  ∀ (s : State) (d : Reg),
    (∀ b rest, s.input = b :: rest → ∃ t, exec (.inp d.toByte) s = .next t ∧ t.reg d = b ∧
      t.input = rest ∧ t.output = s.output ∧ t.outAnswers = s.outAnswers ∧
      SameRegsBut [d] s t ∧ SameMemory s t ∧ SameControl s t) ∧
    (s.input = [] → ∃ t, exec (.inp d.toByte) s = .next t ∧
      (d ≠ Reg.cc → t.reg d = s.config.eosByte ∧ t.cc = s.cc ||| 0x04) ∧
      (d = Reg.cc → t.cc = s.config.eosByte ||| 0x04) ∧
      SameRegsBut [d, Reg.cc] s t ∧ SameMemory s t ∧ SameStreams s t ∧ SameControl s t)

/-- R222 OUT, R223 OUTN: on success the byte is appended and no register changes; on failure
nothing is appended and bit 2 of CC is set. Holds for every answer of the oracle (the spec's
decision D11, notes/assumptions/6.md). -/
def Obligations.OutResults : Prop :=
  ∀ (s : State) (r : Reg) (n : Imm), ∀ p ∈ [(Instr.out r.toByte, s.reg r), (Instr.outn n, n)],
    (s.outAnswers.headD true = true → ∃ t, exec p.1 s = .next t ∧
      t.output = s.output ++ [p.2] ∧ t.input = s.input ∧ t.outAnswers = s.outAnswers.tail ∧
      SameRegsBut [] s t ∧ SameMemory s t ∧ SameControl s t) ∧
    (s.outAnswers.headD true = false → ∃ t, exec p.1 s = .next t ∧ t.cc = s.cc ||| 0x04 ∧
      t.output = s.output ∧ t.input = s.input ∧ t.outAnswers = s.outAnswers.tail ∧
      SameRegsBut [Reg.cc] s t ∧ SameMemory s t ∧ SameControl s t)

/-- `95_test_vectors.md` S9: JEOF right after an IN that found end of stream is taken, and after
an IN that read a byte it is taken only if the flag was set before. -/
def Obligations.EndOfInputThenJeof : Prop :=
  ∀ (s : State) (d : Reg) (x : Addr),
    ∃ t, exec (.inp d.toByte) s = .next t ∧
      (s.input = [] → ∃ u, exec (.jeof x) t = .next u ∧ JumpsIf true x t u) ∧
      (s.input ≠ [] → d ≠ Reg.cc →
        ∃ u, exec (.jeof x) t = .next u ∧ JumpsIf (s.cc.getLsbD 2) x t u)

/-- R230 NOP and R231 HALT as steps of the core, for every opcode map: PC and the clock advance
by one; HALT sets the status Halted; nothing else changes. -/
def Obligations.NopHaltSteps : Prop :=
  ∀ (map : OpcodeMap) (s : State), (∀ m n, map m = map n → m = n) → s.status = .running →
    (s.readMem s.pc = map .nop → ∃ t, stepWith map s = .next t ∧ t.status = .running ∧
      t.pc = s.pc + 1 ∧ t.clock = s.clock + 1 ∧ SameRegsBut [Reg.pc] s t ∧ SameMemory s t ∧
      SameStreams s t ∧ t.faultInfo = s.faultInfo ∧ t.config = s.config) ∧
    (s.readMem s.pc = map .halt → ∃ t, stepWith map s = .next t ∧ t.status = .halted ∧
      t.pc = s.pc + 1 ∧ t.clock = s.clock + 1 ∧ SameRegsBut [Reg.pc] s t ∧ SameMemory s t ∧
      SameStreams s t ∧ t.faultInfo = s.faultInfo ∧ t.config = s.config)

/-- NOP and HALT at the execute stage: NOP answers the state it is given; HALT changes the
status alone. -/
def Obligations.NopHaltResults : Prop :=
  ∀ s : State,
    (∃ t, exec .nop s = .next t ∧ SameRegsBut [] s t ∧ SameMemory s t ∧ SameStreams s t ∧
      SameControl s t) ∧
    (∃ t, exec .halt s = .next t ∧ t.status = .halted ∧ SameRegsBut [] s t ∧ SameMemory s t ∧
      SameStreams s t ∧ t.clock = s.clock ∧ t.faultInfo = s.faultInfo ∧ t.config = s.config)

/-! ## The exception -/

/-- R98: an opcode byte no row has raises BadInstruction after the opcode fetch and before any
operand fetch; under the default map (the spec's decision D1, notes/assumptions/9.md) these are
0x2C to 0xFF. -/
def Obligations.UnknownOpcodeTakesException : Prop :=
  (∀ (map : OpcodeMap) (s : State), s.status = .running →
    (∀ m, map m ≠ s.readMem s.pc) →
    ∃ t, stepWith map s = .next t ∧ t.status = .faulted ∧
      t.faultInfo = some (.unknownOpcode (s.readMem s.pc)) ∧ t.pc = s.pc + 1 ∧
      t.clock = s.clock + 1 ∧ SameRegsBut [Reg.pc] s t ∧ SameMemory s t ∧ SameStreams s t ∧
      t.config = s.config) ∧
  (∀ op : Byte, (∀ m, opcodeMap m ≠ op) ↔ 0x2C ≤ op.toNat)

/-- R99: exactly the operand bytes of kind R that are 12 or more make a defined opcode fault;
immediates and addresses never do. -/
def Obligations.OnlyBadRegistersFault : Prop :=
  ∀ (i : Instr) (s : State), s.status ≠ .faulted →
    ∃ t, exec i s = .next t ∧
      (t.status = .faulted ↔ ∃ o, (OperandKind.reg, o) ∈ i.kindedOperands ∧ 12 ≤ o.toNat)

/-- `60_exceptions.md` R243, R245: a bad register operand takes BadInstruction, the first one
being reported, and the instruction has changed nothing; where the check sits is the spec's
decision D12 (notes/assumptions/16.md), and the diagnostic is the model's own
(notes/assumptions/4.md). -/
def Obligations.BadOperandTakesException : Prop :=
  ∀ (i : Instr) (s : State), ¬ i.WellFormed →
    ∃ t o, exec i s = .next t ∧ i.firstBadOperand = some o ∧ 12 ≤ o.toNat ∧
      BadRegisterTaken o s t

/-- R240: an unrecognized opcode or a bad register operand is the only exception of a running
program, and it is fatal: no further step changes anything. The other error kind is that of the
load: it starts no run. That BadInstruction is a next state, so that no step answers a fault, and
that a Faulted state answers itself, are the model's choices (notes/assumptions/3.md, 2.md); that
256 bytes are accepted is the spec's decision D27 (notes/assumptions/21.md), and that a load during
a run is refused is the model's choice (notes/assumptions/28.md). -/
def Obligations.BadInstructionIsTheOnlyException : Prop :=
  (∀ (map : OpcodeMap) (s t : State), s.status = .running → stepWith map s = .next t →
    (t.status = .faulted ↔
      (∃ op s', fetchInstr map s = (.error op, s')) ∨
      (∃ i s', fetchInstr map s = (.ok i, s') ∧ ¬ i.WellFormed)) ∧
    (t.status = .faulted → stepWith map t = .next t)) ∧
  (∀ (map : OpcodeMap) (s : State) (f : Fault), stepWith map s ≠ .fault f) ∧
  (∀ (p : List Byte) (s : State) (f : Fault),
    loadProgram p s = .fault f ↔ f = .programTooLarge ∧ s.status ≠ .running ∧ 256 < p.length)

/-- `60_exceptions.md` R242, R243: what a faulting step leaves: PC past the bytes fetched, the
clock counted, every other register, memory and the streams untouched. Rests on the spec's
decisions D12, D13, D14 (notes/assumptions/16.md, 17.md, 18.md). -/
def Obligations.FaultingStepFrame : Prop :=
  ∀ (map : OpcodeMap) (s t : State), s.status = .running → stepWith map s = .next t →
    t.status = .faulted →
    t.pc = s.pc + BitVec.ofNat 8
      (1 + ((decodeOpcode map (s.readMem s.pc)).map Mnemonic.arity).getD 0) ∧
    t.clock = s.clock + 1 ∧ SameRegsBut [Reg.pc] s t ∧ SameMemory s t ∧ SameStreams s t ∧
    t.config = s.config

/-! ## Rules of the whole machine -/

/-- `93_implementation_defined.md` part 1: every state has a next step; no memory access, stream
condition or operand stops the core (`20_memory.md` R60). -/
def Obligations.EveryStepAnswersNext : Prop :=
  ∀ (map : OpcodeMap) (s : State), ∃ t, stepWith map s = .next t

/-- `10_state.md` R42 (the spec's decision D22, notes/assumptions/2.md): outside Running no state
changes, however many steps are asked for. -/
def Obligations.FrozenOutsideRunning : Prop :=
  ∀ (k : Nat) (s : State), s.status ≠ .running → run k s = .next s

/-- `40_execution_cycle.md` R127: a step leaves Running only by HALT or by BadInstruction. -/
def Obligations.OnlyHaltOrFaultEndsARun : Prop :=
  ∀ (map : OpcodeMap) (s t : State), s.status = .running → stepWith map s = .next t →
    (t.status = .halted ↔ ∃ s', fetchInstr map s = (.ok .halt, s')) ∧ t.status ≠ .idle ∧
    (t.status = .halted → t.pc = s.pc + 1)

/-- R240 along a run: while every instruction fetched is known and well formed, no state of the
run is Faulted. -/
def Obligations.WellFormedCodeRunsSafely : Prop :=
  ∀ (k : Nat) (s : State), s.status ≠ .faulted →
    (∀ j u, j < k → run j s = .next u → u.status = .running →
      ∃ i s', fetchInstr opcodeMap u = (.ok i, s') ∧ i.WellFormed) →
    SafeFor k s

/-- `40_execution_cycle.md` R126 (the spec's decision D14, notes/assumptions/18.md): along a run
the clock counts every opcode fetch, the HALT or the faulting fetch included, and stands still
after. -/
def Obligations.ClockCountsFetches : Prop :=
  ∀ (k : Nat) (s t u : State), s.status = .running → run k s = .next t →
    t.status = .running → step t = .next u →
    t.clock = s.clock + k ∧ u.clock = s.clock + k + 1 ∧
    (u.status ≠ .running → ∀ j, run (k + 1 + j) s = .next u)

/-- R30: what writes CC as a side effect. -/
def Obligations.WhatWritesCC : Prop :=
  ∀ (i : Instr) (s t : State), exec i s = .next t →
    (t.cc ≠ s.cc → i.isComparison = true ∨ i.isIO = true ∨ i.dst? = some Reg.cc.toByte) ∧
    (i.isComparison = true → i.WellFormed → t.cc &&& 0xFC = 0x00) ∧
    (i.isIO = true → i.WellFormed → i.dst? ≠ some Reg.cc.toByte →
      (i.mnemonic = .inp → t.cc = if s.input = [] then s.cc ||| 0x04 else s.cc) ∧
      (i.mnemonic ≠ .inp → t.cc = if s.outAnswers.headD true then s.cc else s.cc ||| 0x04))

/-- The table of `10_state.md` section 1: a register changes only as the named destination or
where the table lists the instruction. -/
def Obligations.WhatWritesRegisters : Prop :=
  ∀ (i : Instr) (s t : State), exec i s = .next t →
    ∀ r : Reg, t.reg r ≠ s.reg r → i.dst? = some r.toByte ∨ r ∈ i.implicitWrites

/-- `20_memory.md` R61, R68: an instruction changes no byte of memory but the one it stores to;
`storeTarget` computes it with the meanings' own operations. -/
def Obligations.WhatWritesMemory : Prop :=
  ∀ (i : Instr) (s t : State), exec i s = .next t →
    ∀ a : Byte, storeTarget s i ≠ some a → t.readMem a = s.readMem a

/-- R224: only the I/O instructions touch the streams; a byte read is removed and a byte written
is there before the next instruction. -/
def Obligations.WhatTouchesStreams : Prop :=
  ∀ (i : Instr) (s t : State), exec i s = .next t →
    (i.isIO = false → SameStreams s t) ∧
    (∀ d : Reg, i = .inp d.toByte →
      t.input = s.input.tail ∧ t.output = s.output ∧ t.outAnswers = s.outAnswers) ∧
    (∀ b, ((∃ r : Reg, i = .out r.toByte ∧ b = s.reg r) ∨ i = .outn b) →
      t.input = s.input ∧
      t.output = (if s.outAnswers.headD true then s.output ++ [b] else s.output))

/-- `45_io.md` R220 (the spec's decision D8, notes/assumptions/15.md): once set, the end-of-stream
flag stays until a comparison or an explicit write to CC. -/
def Obligations.EosFlagIsSticky : Prop :=
  ∀ (i : Instr) (s t : State), exec i s = .next t → s.cc.getLsbD 2 = true →
    i.isComparison = false → i.dst? ≠ some Reg.cc.toByte → t.cc.getLsbD 2 = true

/-- `20_memory.md` R69, R70: a read returns the byte last written to the cell, and a write leaves
every other cell alone. -/
def Obligations.ReadAfterWrite : Prop :=
  ∀ (s : State) (a b v : Byte), s.mem.wf = true →
    (s.writeMem a v).readMem b = if b = a then v else s.readMem b

/-- `20_memory.md` R75: a stored byte is what the next fetch of its address sees. -/
def Obligations.StoreSeenByFetch : Prop :=
  ∀ (s : State) (r d : Reg) (x : Addr), s.mem.wf = true →
    (∃ t, exec (.storea r.toByte x) s = .next t ∧
      ∀ u : State, SameMemory t u → u.pc = x → (fetchByte u).1 = s.reg r) ∧
    (∃ t, exec (.store r.toByte d.toByte) s = .next t ∧
      ∀ u : State, SameMemory t u → u.pc = s.reg d → (fetchByte u).1 = s.reg r)

/-- R38: no instruction reads the clock: a run from a state whose clock is ahead by `n` is the
same run with the clock ahead by `n`, and the host alone sees it. -/
def Obligations.ClockIsNeverRead : Prop :=
  (∀ (k n : Nat) (s t : State), run k s = .next t →
    run k { s with clock := s.clock + n } = .next { t with clock := t.clock + n }) ∧
  (∀ (i : Instr) (s t : State), exec i s = .next t → t.clock = s.clock) ∧
  (∀ s : State, s.status ≠ .running → hostClock s = some s.clock)

/-- R129: the step is a function of the core's state, of the next input byte when the instruction
is IN, and of the oracle's answer when it is OUT or OUTN; nothing else enters. -/
def Obligations.StepReadsNothingElse : Prop :=
  ∀ (map : OpcodeMap) (s1 s2 t1 t2 : State),
    s1.regs = s2.regs → s1.mem = s2.mem → s1.clock = s2.clock → s1.status = s2.status →
    s1.faultInfo = s2.faultInfo → s1.config = s2.config →
    (∀ d s', fetchInstr map s1 = (.ok (.inp d), s') → s1.input.head? = s2.input.head?) →
    (∀ i s', fetchInstr map s1 = (.ok i, s') → i.mnemonic = .out ∨ i.mnemonic = .outn →
      s1.outAnswers.headD true = s2.outAnswers.headD true) →
    stepWith map s1 = .next t1 → stepWith map s2 = .next t2 →
    t1.regs = t2.regs ∧ t1.mem = t2.mem ∧ t1.clock = t2.clock ∧ t1.status = t2.status ∧
      t1.faultInfo = t2.faultInfo

/-- `20_memory.md` R70: along any run input is consumed from the front, output only grows at the
end, and the parameters stay. -/
def Obligations.StreamsAreHistories : Prop :=
  ∀ (k : Nat) (s t : State), run k s = .next t →
    t.config = s.config ∧ (∃ consumed, s.input = consumed ++ t.input) ∧
    (∃ written, t.output = s.output ++ written)

/-! ## Reset, load and the host -/

/-- `10_state.md` R50: power-on. The clock's value and the status are the spec's decisions D28 and
D22 (notes/assumptions/26.md). -/
def Obligations.PowerOnValues : Prop :=
  (∀ r : Reg, State.reset.reg r = 0x00) ∧ (∀ a : Byte, State.reset.readMem a = 0x00) ∧
  State.reset.clock = 0 ∧ State.reset.status = .idle ∧
  hostClock State.reset = some 0

/-- R51, R64: the state at the first step of an accepted load-and-run, whatever the state before.
That the streams stay is the spec's decision D25 (notes/assumptions/24.md), and that lengths 0 and
256 are accepted is D27 (notes/assumptions/21.md). The diagnostic, which is the model's own, is the
subject of ResetAndLoadMeetInvariant. -/
def Obligations.LoadedProgramState : Prop :=
  ∀ (p : List Byte) (s : State), s.status ≠ .running → p.length ≤ 256 →
    ∃ t, loadProgram p s = .next t ∧ (∀ r : Reg, t.reg r = 0x00) ∧
      (∀ a : Byte, t.readMem a = p.getD a.toNat 0x00) ∧ t.clock = 0 ∧ t.status = .running ∧
      SameStreams s t ∧ t.config = s.config

/-- `60_exceptions.md` R248, `70_reset_and_hazards.md` R273: a program of more than 256 bytes is
rejected and the core is as it was; that it is so on a used core is the spec's decision D18
(notes/assumptions/21.md). -/
def Obligations.TooLargeProgramRejected : Prop :=
  ∀ (fuel : Nat) (p : List Byte) (s : State), s.status ≠ .running → 256 < p.length →
    loadProgram p s = .fault .programTooLarge ∧
    loadAndRun fuel p s = (some .programTooLarge, s)

/-- `70_reset_and_hazards.md` R272: load-and-run answers Success when the run halted,
BadInstruction when it faulted, and nothing while it goes on. -/
def Obligations.LoadAndRunResult : Prop :=
  ∀ (fuel : Nat) (p : List Byte) (s : State), s.status ≠ .running → p.length ≤ 256 →
    ∃ t, run fuel (loadedState p s) = .next t ∧ (loadAndRun fuel p s).2 = t ∧
      ((loadAndRun fuel p s).1 = some .success ↔ t.status = .halted) ∧
      ((loadAndRun fuel p s).1 = some .badInstruction ↔ t.status = .faulted) ∧
      ((loadAndRun fuel p s).1 = none ↔ t.status = .running)

/-- `70_reset_and_hazards.md` R274: the same program with the same input and output conditions
runs the same from any two earlier states: nothing of a prior run leaks into the next. -/
def Obligations.RunsAreIndependent : Prop :=
  ∀ (k : Nat) (p : List Byte) (s1 s2 t1 t2 : State),
    s1.input = s2.input → s1.outAnswers = s2.outAnswers → s1.config = s2.config →
    run k (loadedState p s1) = .next t1 → run k (loadedState p s2) = .next t2 →
    t1.regs = t2.regs ∧ t1.mem = t2.mem ∧ t1.clock = t2.clock ∧ t1.status = t2.status ∧
    t1.input = t2.input ∧
    ∃ written, t1.output = s1.output ++ written ∧ t2.output = s2.output ++ written

/-- R279: `dump()` shows the twelve registers and the 256 bytes of memory. -/
def Obligations.DumpShowsRegistersAndMemory : Prop :=
  ∀ s : State, s.status ≠ .running →
    ∃ rs ms, hostDump s = some (rs, ms) ∧ rs.length = 12 ∧ ms.length = 256 ∧
      (∀ r : Reg, rs[r.val]? = some (s.reg r)) ∧ (∀ a : Byte, ms[a.toNat]? = some (s.readMem a))

/-! ## The invariant -/

/-- Every step, under every opcode map, keeps memory in its canonical form and the diagnostic
present exactly when the run has faulted (the model's own invariant, notes/assumptions/4.md,
27.md). -/
def Obligations.StepKeepsInvariant : Prop :=
  ∀ (map : OpcodeMap) (s t : State), Inv s → stepWith map s = .next t → Inv t

/-- The invariant holds at power-on and at the first step of every accepted load. -/
def Obligations.ResetAndLoadMeetInvariant : Prop :=
  Inv State.reset ∧
  ∀ (p : List Byte) (s t : State), loadProgram p s = .next t → Inv t
end

