-- ==== Sys2Proof/Laws/State.lean ====
section
/-! SUPPORT. One lemma per field per update of the state, and what reading a register gives
after each. -/

namespace Sys2Proof.Machine

variable (s : State)


/-! ## The named registers are distinct -/

@[simp] theorem pc_ne_sp : Reg.pc ≠ Reg.sp := by decide
@[simp] theorem pc_ne_cc : Reg.pc ≠ Reg.cc := by decide
@[simp] theorem sp_ne_pc : Reg.sp ≠ Reg.pc := by decide
@[simp] theorem sp_ne_cc : Reg.sp ≠ Reg.cc := by decide
@[simp] theorem cc_ne_pc : Reg.cc ≠ Reg.pc := by decide
@[simp] theorem cc_ne_sp : Reg.cc ≠ Reg.sp := by decide

/-! ## `setReg` -/

@[simp] theorem setReg_mem (r : Reg) (v : Byte) : (s.setReg r v).mem = s.mem := rfl
@[simp] theorem setReg_clock (r : Reg) (v : Byte) : (s.setReg r v).clock = s.clock := rfl
@[simp] theorem setReg_status (r : Reg) (v : Byte) : (s.setReg r v).status = s.status := rfl
@[simp] theorem setReg_input (r : Reg) (v : Byte) : (s.setReg r v).input = s.input := rfl
@[simp] theorem setReg_output (r : Reg) (v : Byte) : (s.setReg r v).output = s.output := rfl
@[simp] theorem setReg_outAnswers (r : Reg) (v : Byte) : (s.setReg r v).outAnswers = s.outAnswers := rfl
@[simp] theorem setReg_faultInfo (r : Reg) (v : Byte) : (s.setReg r v).faultInfo = s.faultInfo := rfl
@[simp] theorem setReg_config (r : Reg) (v : Byte) : (s.setReg r v).config = s.config := rfl
@[simp] theorem setReg_readMem (r : Reg) (v : Byte) (a : Byte) : (s.setReg r v).readMem a = s.readMem a := rfl

/-! ## `writeMem` -/

@[simp] theorem writeMem_regs (a v : Byte) : (s.writeMem a v).regs = s.regs := rfl
@[simp] theorem writeMem_clock (a v : Byte) : (s.writeMem a v).clock = s.clock := rfl
@[simp] theorem writeMem_status (a v : Byte) : (s.writeMem a v).status = s.status := rfl
@[simp] theorem writeMem_input (a v : Byte) : (s.writeMem a v).input = s.input := rfl
@[simp] theorem writeMem_output (a v : Byte) : (s.writeMem a v).output = s.output := rfl
@[simp] theorem writeMem_outAnswers (a v : Byte) : (s.writeMem a v).outAnswers = s.outAnswers := rfl
@[simp] theorem writeMem_faultInfo (a v : Byte) : (s.writeMem a v).faultInfo = s.faultInfo := rfl
@[simp] theorem writeMem_config (a v : Byte) : (s.writeMem a v).config = s.config := rfl
@[simp] theorem writeMem_reg (a v : Byte) (q : Reg) : (s.writeMem a v).reg q = s.reg q := rfl

/-! ## `tick` -/

@[simp] theorem tick_regs : (s.tick).regs = s.regs := rfl
@[simp] theorem tick_mem : (s.tick).mem = s.mem := rfl
@[simp] theorem tick_status : (s.tick).status = s.status := rfl
@[simp] theorem tick_input : (s.tick).input = s.input := rfl
@[simp] theorem tick_output : (s.tick).output = s.output := rfl
@[simp] theorem tick_outAnswers : (s.tick).outAnswers = s.outAnswers := rfl
@[simp] theorem tick_faultInfo : (s.tick).faultInfo = s.faultInfo := rfl
@[simp] theorem tick_config : (s.tick).config = s.config := rfl
@[simp] theorem tick_readMem (a : Byte) : (s.tick).readMem a = s.readMem a := rfl
@[simp] theorem tick_reg (q : Reg) : (s.tick).reg q = s.reg q := rfl

/-! ## `setStatus` -/

@[simp] theorem setStatus_regs (st : RunStatus) : (s.setStatus st).regs = s.regs := rfl
@[simp] theorem setStatus_mem (st : RunStatus) : (s.setStatus st).mem = s.mem := rfl
@[simp] theorem setStatus_clock (st : RunStatus) : (s.setStatus st).clock = s.clock := rfl
@[simp] theorem setStatus_input (st : RunStatus) : (s.setStatus st).input = s.input := rfl
@[simp] theorem setStatus_output (st : RunStatus) : (s.setStatus st).output = s.output := rfl
@[simp] theorem setStatus_outAnswers (st : RunStatus) : (s.setStatus st).outAnswers = s.outAnswers := rfl
@[simp] theorem setStatus_faultInfo (st : RunStatus) : (s.setStatus st).faultInfo = s.faultInfo := rfl
@[simp] theorem setStatus_config (st : RunStatus) : (s.setStatus st).config = s.config := rfl
@[simp] theorem setStatus_readMem (st : RunStatus) (a : Byte) : (s.setStatus st).readMem a = s.readMem a := rfl
@[simp] theorem setStatus_reg (st : RunStatus) (q : Reg) : (s.setStatus st).reg q = s.reg q := rfl

/-! ## `raise` -/

@[simp] theorem raise_regs (f : FaultInfo) : (raiseBadInstruction f s).regs = s.regs := rfl
@[simp] theorem raise_mem (f : FaultInfo) : (raiseBadInstruction f s).mem = s.mem := rfl
@[simp] theorem raise_clock (f : FaultInfo) : (raiseBadInstruction f s).clock = s.clock := rfl
@[simp] theorem raise_input (f : FaultInfo) : (raiseBadInstruction f s).input = s.input := rfl
@[simp] theorem raise_output (f : FaultInfo) : (raiseBadInstruction f s).output = s.output := rfl
@[simp] theorem raise_outAnswers (f : FaultInfo) : (raiseBadInstruction f s).outAnswers = s.outAnswers := rfl
@[simp] theorem raise_config (f : FaultInfo) : (raiseBadInstruction f s).config = s.config := rfl
@[simp] theorem raise_readMem (f : FaultInfo) (a : Byte) : (raiseBadInstruction f s).readMem a = s.readMem a := rfl
@[simp] theorem raise_reg (f : FaultInfo) (q : Reg) : (raiseBadInstruction f s).reg q = s.reg q := rfl

/-! ## `growStack` -/

@[simp] theorem growStack_mem : (growStack s).mem = s.mem := rfl
@[simp] theorem growStack_clock : (growStack s).clock = s.clock := rfl
@[simp] theorem growStack_status : (growStack s).status = s.status := rfl
@[simp] theorem growStack_input : (growStack s).input = s.input := rfl
@[simp] theorem growStack_output : (growStack s).output = s.output := rfl
@[simp] theorem growStack_outAnswers : (growStack s).outAnswers = s.outAnswers := rfl
@[simp] theorem growStack_faultInfo : (growStack s).faultInfo = s.faultInfo := rfl
@[simp] theorem growStack_config : (growStack s).config = s.config := rfl
@[simp] theorem growStack_readMem (a : Byte) : (growStack s).readMem a = s.readMem a := rfl

/-! ## `shrinkStack` -/

@[simp] theorem shrinkStack_mem : (shrinkStack s).mem = s.mem := rfl
@[simp] theorem shrinkStack_clock : (shrinkStack s).clock = s.clock := rfl
@[simp] theorem shrinkStack_status : (shrinkStack s).status = s.status := rfl
@[simp] theorem shrinkStack_input : (shrinkStack s).input = s.input := rfl
@[simp] theorem shrinkStack_output : (shrinkStack s).output = s.output := rfl
@[simp] theorem shrinkStack_outAnswers : (shrinkStack s).outAnswers = s.outAnswers := rfl
@[simp] theorem shrinkStack_faultInfo : (shrinkStack s).faultInfo = s.faultInfo := rfl
@[simp] theorem shrinkStack_config : (shrinkStack s).config = s.config := rfl
@[simp] theorem shrinkStack_readMem (a : Byte) : (shrinkStack s).readMem a = s.readMem a := rfl

/-! ## `storeTop` -/

@[simp] theorem storeTop_regs (v : Byte) : (storeTop v s).regs = s.regs := rfl
@[simp] theorem storeTop_clock (v : Byte) : (storeTop v s).clock = s.clock := rfl
@[simp] theorem storeTop_status (v : Byte) : (storeTop v s).status = s.status := rfl
@[simp] theorem storeTop_input (v : Byte) : (storeTop v s).input = s.input := rfl
@[simp] theorem storeTop_output (v : Byte) : (storeTop v s).output = s.output := rfl
@[simp] theorem storeTop_outAnswers (v : Byte) : (storeTop v s).outAnswers = s.outAnswers := rfl
@[simp] theorem storeTop_faultInfo (v : Byte) : (storeTop v s).faultInfo = s.faultInfo := rfl
@[simp] theorem storeTop_config (v : Byte) : (storeTop v s).config = s.config := rfl
@[simp] theorem storeTop_reg (v : Byte) (q : Reg) : (storeTop v s).reg q = s.reg q := rfl

/-! ## `setEos` -/

@[simp] theorem setEos_mem : (setEos s).mem = s.mem := rfl
@[simp] theorem setEos_clock : (setEos s).clock = s.clock := rfl
@[simp] theorem setEos_status : (setEos s).status = s.status := rfl
@[simp] theorem setEos_input : (setEos s).input = s.input := rfl
@[simp] theorem setEos_output : (setEos s).output = s.output := rfl
@[simp] theorem setEos_outAnswers : (setEos s).outAnswers = s.outAnswers := rfl
@[simp] theorem setEos_faultInfo : (setEos s).faultInfo = s.faultInfo := rfl
@[simp] theorem setEos_config : (setEos s).config = s.config := rfl
@[simp] theorem setEos_readMem (a : Byte) : (setEos s).readMem a = s.readMem a := rfl

/-! ## `setInput` -/

@[simp] theorem setInput_regs (bs : List Byte) : (s.setInput bs).regs = s.regs := rfl
@[simp] theorem setInput_mem (bs : List Byte) : (s.setInput bs).mem = s.mem := rfl
@[simp] theorem setInput_clock (bs : List Byte) : (s.setInput bs).clock = s.clock := rfl
@[simp] theorem setInput_status (bs : List Byte) : (s.setInput bs).status = s.status := rfl
@[simp] theorem setInput_output (bs : List Byte) : (s.setInput bs).output = s.output := rfl
@[simp] theorem setInput_outAnswers (bs : List Byte) : (s.setInput bs).outAnswers = s.outAnswers := rfl
@[simp] theorem setInput_faultInfo (bs : List Byte) : (s.setInput bs).faultInfo = s.faultInfo := rfl
@[simp] theorem setInput_config (bs : List Byte) : (s.setInput bs).config = s.config := rfl
@[simp] theorem setInput_readMem (bs : List Byte) (a : Byte) : (s.setInput bs).readMem a = s.readMem a := rfl
@[simp] theorem setInput_reg (bs : List Byte) (q : Reg) : (s.setInput bs).reg q = s.reg q := rfl

/-! ## `emit` -/

@[simp] theorem emit_regs (b : Byte) : (s.emit b).regs = s.regs := rfl
@[simp] theorem emit_mem (b : Byte) : (s.emit b).mem = s.mem := rfl
@[simp] theorem emit_clock (b : Byte) : (s.emit b).clock = s.clock := rfl
@[simp] theorem emit_status (b : Byte) : (s.emit b).status = s.status := rfl
@[simp] theorem emit_input (b : Byte) : (s.emit b).input = s.input := rfl
@[simp] theorem emit_outAnswers (b : Byte) : (s.emit b).outAnswers = s.outAnswers := rfl
@[simp] theorem emit_faultInfo (b : Byte) : (s.emit b).faultInfo = s.faultInfo := rfl
@[simp] theorem emit_config (b : Byte) : (s.emit b).config = s.config := rfl
@[simp] theorem emit_readMem (b : Byte) (a : Byte) : (s.emit b).readMem a = s.readMem a := rfl
@[simp] theorem emit_reg (b : Byte) (q : Reg) : (s.emit b).reg q = s.reg q := rfl

/-! ## `nextAnswer` -/

@[simp] theorem nextAnswer_regs : (s.nextAnswer).regs = s.regs := rfl
@[simp] theorem nextAnswer_mem : (s.nextAnswer).mem = s.mem := rfl
@[simp] theorem nextAnswer_clock : (s.nextAnswer).clock = s.clock := rfl
@[simp] theorem nextAnswer_status : (s.nextAnswer).status = s.status := rfl
@[simp] theorem nextAnswer_input : (s.nextAnswer).input = s.input := rfl
@[simp] theorem nextAnswer_output : (s.nextAnswer).output = s.output := rfl
@[simp] theorem nextAnswer_faultInfo : (s.nextAnswer).faultInfo = s.faultInfo := rfl
@[simp] theorem nextAnswer_config : (s.nextAnswer).config = s.config := rfl
@[simp] theorem nextAnswer_readMem (a : Byte) : (s.nextAnswer).readMem a = s.readMem a := rfl
@[simp] theorem nextAnswer_reg (q : Reg) : (s.nextAnswer).reg q = s.reg q := rfl

/-! ## The fields each update writes -/

@[simp] theorem tick_clock : s.tick.clock = s.clock + 1 := rfl
@[simp] theorem setStatus_status (st : RunStatus) : (s.setStatus st).status = st := rfl
@[simp] theorem raise_status (f : FaultInfo) : (raiseBadInstruction f s).status = .faulted := rfl
@[simp] theorem raise_faultInfo (f : FaultInfo) :
    (raiseBadInstruction f s).faultInfo = some f := rfl
@[simp] theorem writeMem_mem (a v : Byte) :
    (s.writeMem a v).mem = s.mem.writeAt a.toNat v := rfl
@[simp] theorem setInput_input (bs : List Byte) : (s.setInput bs).input = bs := rfl
@[simp] theorem emit_output (b : Byte) : (s.emit b).output = s.output ++ [b] := rfl
@[simp] theorem nextAnswer_outAnswers : s.nextAnswer.outAnswers = s.outAnswers.tail := rfl
@[simp] theorem storeTop_mem (v : Byte) :
    (storeTop v s).mem = s.mem.writeAt s.sp.toNat v := rfl

/-- Reading a register after a write: no register aliases another (`10_state.md` R22). -/
theorem reg_setReg (r q : Reg) (v : Byte) :
    (s.setReg r v).reg q = if q = r then v else s.reg q := by
  simp [State.reg, State.setReg, Vector.getElem_set, Fin.ext_iff, eq_comm]

@[simp] theorem reg_setReg_same (r : Reg) (v : Byte) : (s.setReg r v).reg r = v := by
  simp [reg_setReg]

@[simp] theorem reg_setReg_ne {r q : Reg} (h : q ≠ r) (v : Byte) :
    (s.setReg r v).reg q = s.reg q := by
  simp [reg_setReg, h]

@[simp] theorem growStack_sp : (growStack s).sp = s.sp - 1 := reg_setReg_same ..
@[simp] theorem growStack_reg_ne {q : Reg} (h : q ≠ Reg.sp) : (growStack s).reg q = s.reg q :=
  reg_setReg_ne s h _
@[simp] theorem shrinkStack_sp : (shrinkStack s).sp = s.sp + 1 := reg_setReg_same ..
@[simp] theorem shrinkStack_reg_ne {q : Reg} (h : q ≠ Reg.sp) :
    (shrinkStack s).reg q = s.reg q := reg_setReg_ne s h _
@[simp] theorem setEos_cc : (setEos s).cc = s.cc ||| maskEOS := reg_setReg_same ..
@[simp] theorem setEos_reg_ne {q : Reg} (h : q ≠ Reg.cc) : (setEos s).reg q = s.reg q :=
  reg_setReg_ne s h _

/-- Two states with the same registers read alike. -/
theorem regs_ext {s t : State} (h : ∀ r, t.reg r = s.reg r) : t.regs = s.regs :=
  Vector.ext fun i hi => h ⟨i, hi⟩

end Sys2Proof.Machine
end

