-- ==== Sys2Proof/Laws/Operands.lean ====
section
/-! SUPPORT. The register check and the operand forms (`40_execution_cycle.md` R124). -/

namespace Sys2Proof.Machine

@[simp] theorem toNat_toByte (r : Reg) : r.toByte.toNat = r.val := by
  have : r.val < 12 := r.isLt
  simp only [Reg.toByte, BitVec.toNat_ofNat]
  omega

theorem toByte_injective {r q : Reg} (h : r.toByte = q.toByte) : r = q := by
  have := congrArg BitVec.toNat h
  simpa [Fin.ext_iff] using this

/-- A legal operand byte names its register. -/
@[simp] theorem checkReg_toByte (r : Reg) : checkReg r.toByte = some r := by
  simp [checkReg, r.isLt]

theorem checkReg_eq_some {o : RegByte} {r : Reg} : checkReg o = some r ↔ o = r.toByte := by
  constructor
  · intro h
    unfold checkReg at h
    split at h
    · cases h
      exact BitVec.eq_of_toNat_eq (by simp)
    · cases h
  · rintro rfl
    exact checkReg_toByte r

theorem checkReg_eq_none {o : RegByte} : checkReg o = none ↔ numRegs ≤ o.toNat := by
  unfold checkReg
  split <;> simp_all

theorem ok_iff_checkReg {o : RegByte} : RegByte.ok o = true ↔ ∃ r, checkReg o = some r := by
  unfold checkReg RegByte.ok
  split <;> simp_all

theorem ok_false_iff {o : RegByte} : RegByte.ok o = false ↔ checkReg o = none := by
  unfold checkReg RegByte.ok
  split <;> simp_all

@[simp] theorem ok_toByte (r : Reg) : RegByte.ok r.toByte = true := by
  simp [ok_iff_checkReg]

@[simp] theorem withReg_toByte (r : Reg) (s : State) (f : Reg → State) :
    withReg r.toByte s f = .next (f r) := by
  simp [withReg]

@[simp] theorem withRegs_toByte (a b : Reg) (s : State) (f : Reg → Reg → State) :
    withRegs a.toByte b.toByte s f = .next (f a b) := by
  simp [withRegs]

/-- All that a form with one register operand can answer. -/
theorem withReg_cases (o : RegByte) (s : State) (f : Reg → State) :
    (∃ r : Reg, o = r.toByte ∧ withReg o s f = .next (f r)) ∨
    (numRegs ≤ o.toNat ∧
      withReg o s f = .next (raiseBadInstruction (.badRegister o) s)) := by
  cases h : checkReg o with
  | none => exact .inr ⟨checkReg_eq_none.mp h, by simp [withReg, h]⟩
  | some r => exact .inl ⟨r, checkReg_eq_some.mp h, by simp [withReg, h]⟩

/-- All that a form with two register operands can answer: the first bad one is reported. -/
theorem withRegs_cases (o1 o2 : RegByte) (s : State) (f : Reg → Reg → State) :
    (∃ a b : Reg, o1 = a.toByte ∧ o2 = b.toByte ∧ withRegs o1 o2 s f = .next (f a b)) ∨
    (numRegs ≤ o1.toNat ∧
      withRegs o1 o2 s f = .next (raiseBadInstruction (.badRegister o1) s)) ∨
    ((∃ a : Reg, o1 = a.toByte) ∧ numRegs ≤ o2.toNat ∧
      withRegs o1 o2 s f = .next (raiseBadInstruction (.badRegister o2) s)) := by
  cases h : checkReg o1 with
  | none => exact .inr (.inl ⟨checkReg_eq_none.mp h, by simp [withRegs, h]⟩)
  | some a =>
    have h1 := checkReg_eq_some.mp h
    rcases withReg_cases o2 s (f a) with ⟨b, hb, e⟩ | ⟨hb, e⟩
    · exact .inl ⟨a, b, h1, hb, by simpa [withRegs, h] using e⟩
    · exact .inr (.inr ⟨⟨a, h1⟩, hb, by simpa [withRegs, h] using e⟩)

end Sys2Proof.Machine
end

