-- ==== Sys2Proof/Laws/Flags.lean ====
section
/-! SUPPORT. The flags as bits (`10_state.md` R29, `44_control_transfer.md` R202): each predicate
is a statement about bits 0 to 2 of CC. -/

namespace Sys2Proof.Machine

theorem isEqual_eq (c : Byte) : isEqual c = c.getLsbD 0 := by revert c; decide
theorem isNotEqual_eq (c : Byte) : isNotEqual c = !c.getLsbD 0 := by revert c; decide
theorem isLess_eq (c : Byte) : isLess c = c.getLsbD 1 := by revert c; decide
theorem isLessOrEqual_eq (c : Byte) : isLessOrEqual c = (c.getLsbD 1 || c.getLsbD 0) := by
  revert c; decide
theorem isGreater_eq (c : Byte) : isGreater c = (!c.getLsbD 1 && !c.getLsbD 0) := by
  revert c; decide
theorem isGreaterOrEqual_eq (c : Byte) : isGreaterOrEqual c = !c.getLsbD 1 := by
  revert c; decide
theorem isEos_eq (c : Byte) : isEos c = c.getLsbD 2 := by revert c; decide
theorem isNotEos_eq (c : Byte) : isNotEos c = !c.getLsbD 2 := by revert c; decide

/-- The end-of-stream flag is set once ORed in. -/
theorem getLsbD_two_or_maskEOS (c : Byte) : (c ||| maskEOS).getLsbD 2 = true := by
  revert c; decide

/-- The three outcomes of a comparison (`43_comparison.md` R190). -/
theorem compareFlags_cases (u v : Byte) :
    (u = v ∧ compareFlags u v = 0x01) ∨ (u.toNat < v.toNat ∧ compareFlags u v = 0x02) ∨
    (v.toNat < u.toNat ∧ compareFlags u v = 0x00) := by
  rcases Nat.lt_trichotomy u.toNat v.toNat with h | h | h
  · have hne : u ≠ v := by rintro rfl; omega
    exact .inr (.inl ⟨h, by simp [compareFlags, maskL, hne, h]⟩)
  · have heq : u = v := BitVec.eq_of_toNat_eq h
    exact .inl ⟨heq, by simp [compareFlags, maskE, heq]⟩
  · have hne : u ≠ v := by rintro rfl; omega
    exact .inr (.inr ⟨h, by simp [compareFlags, hne, Nat.not_lt.mpr (Nat.le_of_lt h)]⟩)

/-- The two outcomes of a test (`43_comparison.md` R193). -/
theorem testFlags_cases (u : Byte) :
    (u = 0x00 ∧ testFlags u = 0x01) ∨ (u ≠ 0x00 ∧ testFlags u = 0x00) := by
  by_cases h : u = 0x00
  · exact .inl ⟨h, by simp [testFlags, maskE, h]⟩
  · exact .inr ⟨h, if_neg h⟩

end Sys2Proof.Machine
end

