-- ==== Sys2Proof/Laws/Streams.lean ====
section
/-! SUPPORT. All that reading the input and writing the output can do (`45_io.md` R220 to R223,
`10_state.md` R44, R45). -/

namespace Sys2Proof.Machine

/-- IN with a byte there: it leaves the input and goes to the register. -/
theorem readInto_cons {s : State} {b : Byte} {rest : List Byte} (h : s.input = b :: rest)
    (d : Reg) : readInto d s = (s.setInput rest).setReg d b := by
  simp [readInto, inRead, h]

/-- IN at end of stream: the sentinel, then the flag. -/
theorem readInto_nil {s : State} (h : s.input = []) (d : Reg) :
    readInto d s = setEos (s.setReg d s.config.eosByte) := by
  simp [readInto, inRead, h]

/-- A write that succeeds appends the byte. -/
theorem writeOut_ok {s : State} (h : outOk s = true) (b : Byte) :
    writeOut b s = (s.emit b).nextAnswer := by
  simp [writeOut, outWrite, h]

/-- A write that fails appends nothing and sets the flag. -/
theorem writeOut_fail {s : State} (h : outOk s = false) (b : Byte) :
    writeOut b s = setEos s.nextAnswer := by
  simp [writeOut, outWrite, h]

end Sys2Proof.Machine
end

