-- ==== Sys2Proof/Laws/Exec.lean ====
section
/-! SUPPORT. All that an execute stage can do, said once (`40_execution_cycle.md` R125): `exec`
always answers a next state, and that state is one of the shapes of `Effect`. -/

namespace Sys2Proof.Machine

/-- A form with one register operand, as a case split on its answer. -/
theorem withReg_elim {P : State → Prop} {o : RegByte} {s : State} {f : Reg → State}
    (good : ∀ r : Reg, o = r.toByte → P (f r))
    (bad : numRegs ≤ o.toNat → P (raiseBadInstruction (.badRegister o) s)) :
    ∃ t, withReg o s f = .next t ∧ P t := by
  rcases withReg_cases o s f with ⟨r, hr, e⟩ | ⟨hb, e⟩
  · exact ⟨_, e, good r hr⟩
  · exact ⟨_, e, bad hb⟩

/-- A form with two register operands, as a case split on its answer. -/
theorem withRegs_elim {P : State → Prop} {o1 o2 : RegByte} {s : State} {f : Reg → Reg → State}
    (good : ∀ a b : Reg, o1 = a.toByte → o2 = b.toByte → P (f a b))
    (bad1 : numRegs ≤ o1.toNat → P (raiseBadInstruction (.badRegister o1) s))
    (bad2 : (∃ a : Reg, o1 = a.toByte) → numRegs ≤ o2.toNat →
      P (raiseBadInstruction (.badRegister o2) s)) :
    ∃ t, withRegs o1 o2 s f = .next t ∧ P t := by
  rcases withRegs_cases o1 o2 s f with ⟨a, b, ha, hb, e⟩ | ⟨hb, e⟩ | ⟨ha, hb, e⟩
  · exact ⟨_, e, good a b ha hb⟩
  · exact ⟨_, e, bad1 hb⟩
  · exact ⟨_, e, bad2 ha hb⟩

/-- An instruction that writes no flag as a side effect, touches no stream, moves no stack and
transfers no control: what its shape needs to say about it. -/
def Instr.plain (i : Instr) : Prop :=
  i.isIO = false ∧ i.isComparison = false ∧ i.implicitWrites = [] ∧ i ≠ .halt ∧
    ∀ c, i.transfers c = false

/-- The shapes of a state after an execute stage that began in `s`. -/
inductive Effect (s : State) : Instr → State → Prop
  /-- A bad register operand: BadInstruction, nothing else. -/
  | bad (i : Instr) (o : Byte) (hw : i.wf = false) (hf : i.firstBadOperand = some o)
      (ho : 12 ≤ o.toNat) : Effect s i (raiseBadInstruction (.badRegister o) s)
  /-- A value into the named destination. -/
  | result (i : Instr) (d : Reg) (v : Byte) (hw : i.wf = true) (hd : i.dst? = some d.toByte)
      (hp : Instr.plain i) : Effect s i (s.setReg d v)
  /-- A value into the byte of memory addressed. -/
  | store (i : Instr) (a v : Byte) (hw : i.wf = true) (hd : i.dst? = none)
      (ht : storeTarget s i = some a) (hp : Instr.plain i) : Effect s i (s.writeMem a v)
  /-- PUSH of a register. -/
  | push (r : Reg) :
      Effect s (.push r.toByte) (storeTop ((growStack s).reg r) (growStack s))
  /-- PUSHN. -/
  | pushn (n : Byte) : Effect s (.pushn n) (storeTop n (growStack s))
  /-- POP. -/
  | pop (d : Reg) : Effect s (.pop d.toByte) (shrinkStack (s.setReg d (loadTop s)))
  /-- A comparison or a test: one of three values into CC. -/
  | compare (i : Instr) (v : Byte) (hw : i.wf = true) (hc : i.isComparison = true)
      (hv : v = 0x00 ∨ v = 0x01 ∨ v = 0x02) : Effect s i (s.setReg Reg.cc v)
  /-- A jump, conditional or not. -/
  | jump (i : Instr) (x : Byte) (hw : i.wf = true) (hi : i.implicitWrites = [Reg.pc])
      (ho : i.operands = [x]) (hd : i.dst? = none) :
      Effect s i (if i.transfers s.cc then s.setReg Reg.pc x else s)
  /-- CALL. -/
  | call (x : Byte) : Effect s (.call x) ((storeTop s.pc (growStack s)).setReg Reg.pc x)
  /-- RET. -/
  | ret : Effect s .ret ((shrinkStack s).setReg Reg.pc (loadTop s))
  /-- IN. -/
  | inp (d : Reg) : Effect s (.inp d.toByte) (readInto d s)
  /-- OUT. -/
  | out (r : Reg) : Effect s (.out r.toByte) (writeOut (s.reg r) s)
  /-- OUTN. -/
  | outn (n : Byte) : Effect s (.outn n) (writeOut n s)
  /-- NOP. -/
  | nop : Effect s .nop s
  /-- HALT. -/
  | halt : Effect s .halt (s.setStatus .halted)

/-- A bad first operand is the one reported. -/
theorem firstBad_head {i : Instr} {o : Byte} {rest : List (OperandKind × Byte)}
    (hk : i.kindedOperands = (.reg, o) :: rest) (h : 12 ≤ o.toNat) :
    i.firstBadOperand = some o := by
  simp [Instr.firstBadOperand, hk, h]

/-- A bad second operand is reported when the first is not at fault. -/
theorem firstBad_second {i : Instr} {o : Byte} {p : OperandKind × Byte}
    (hk : i.kindedOperands = [p, (.reg, o)]) (hp : p.1 = .reg → p.2.toNat < 12)
    (h : 12 ≤ o.toNat) : i.firstBadOperand = some o := by
  have : (p.1 == .reg && decide (numRegs ≤ p.2.toNat)) = false := by
    simpa using hp
  simp [Instr.firstBadOperand, hk, h, this]

/-- What an execute stage can do. -/
theorem exec_effect (i : Instr) (s : State) : ∃ t, exec i s = .next t ∧ Effect s i t := by
  have pl : ∀ i : Instr, i.isIO = false → i.isComparison = false → i.implicitWrites = [] →
      i ≠ .halt → (∀ c, i.transfers c = false) → Instr.plain i := fun _ a b c d e =>
    ⟨a, b, c, d, e⟩
  have nlt : ∀ {o : Byte}, numRegs ≤ o.toNat → RegByte.ok o = false := fun h =>
    ok_false_iff.mpr (checkReg_eq_none.mpr h)
  cases i
  case mov | load | inc | dec | add | sub | and | or | xor | not =>
    refine withRegs_elim (fun a b ha hb => ?_) (fun h => ?_) (fun ⟨a, ha⟩ h => ?_)
    · subst ha hb
      exact .result _ b _ (by simp [Instr.wf]) rfl (pl _ rfl rfl rfl nofun fun _ => rfl)
    · exact .bad _ _ (by simp [Instr.wf, nlt h])
        (firstBad_head rfl h) h
    · subst ha
      exact .bad _ _ (by simp [Instr.wf, nlt h])
        (firstBad_second rfl (fun _ => by simp) h) h
  case movn | loada | incn | decn | addn | subn | andn | orn | xorn | notn =>
    refine withReg_elim (fun b hb => ?_) (fun h => ?_)
    · subst hb
      exact .result _ b _ (by simp [Instr.wf]) rfl (pl _ rfl rfl rfl nofun fun _ => rfl)
    · exact .bad _ _ (by simp [Instr.wf, nlt h])
        (firstBad_second rfl nofun h) h
  case store =>
    refine withRegs_elim (fun a b ha hb => ?_) (fun h => ?_) (fun ⟨a, ha⟩ h => ?_)
    · subst ha hb
      exact .store _ _ _ (by simp [Instr.wf]) rfl (by simp [storeTarget])
        (pl _ rfl rfl rfl nofun fun _ => rfl)
    · exact .bad _ _ (by simp [Instr.wf, nlt h])
        (firstBad_head rfl h) h
    · subst ha
      exact .bad _ _ (by simp [Instr.wf, nlt h])
        (firstBad_second rfl (fun _ => by simp) h) h
  case storea =>
    refine withReg_elim (fun b hb => ?_) (fun h => ?_)
    · subst hb
      exact .store _ _ _ (by simp [Instr.wf]) rfl (by simp [storeTarget])
        (pl _ rfl rfl rfl nofun fun _ => rfl)
    · exact .bad _ _ (by simp [Instr.wf, nlt h])
        (firstBad_head rfl h) h
  case push | pop | inp | out =>
    refine withReg_elim (fun b hb => ?_) (fun h => ?_)
    · subst hb; constructor
    · exact .bad _ _ (by simp [Instr.wf, nlt h])
        (firstBad_head rfl h) h
  case cmp =>
    refine withRegs_elim (fun a b ha hb => ?_) (fun h => ?_) (fun ⟨a, ha⟩ h => ?_)
    · subst ha hb
      exact .compare _ _ (by simp [Instr.wf]) rfl (by
        rcases compareFlags_cases (s.reg a) (s.reg b) with h | h | h <;> simp [h.2])
    · exact .bad _ _ (by simp [Instr.wf, nlt h])
        (firstBad_head rfl h) h
    · subst ha
      exact .bad _ _ (by simp [Instr.wf, nlt h])
        (firstBad_second rfl (fun _ => by simp) h) h
  case cmpn a n =>
    refine withReg_elim (fun b hb => ?_) (fun h => ?_)
    · subst hb
      exact .compare _ _ (by simp [Instr.wf]) rfl (by
        rcases compareFlags_cases (s.reg b) n with h | h | h <;> simp [h.2])
    · exact .bad _ _ (by simp [Instr.wf, nlt h])
        (firstBad_head rfl h) h
  case tst a =>
    refine withReg_elim (fun b hb => ?_) (fun h => ?_)
    · subst hb
      exact .compare _ _ (by simp [Instr.wf]) rfl (by
        rcases testFlags_cases (s.reg b) with h | h <;> simp [h.2])
    · exact .bad _ _ (by simp [Instr.wf, nlt h])
        (firstBad_head rfl h) h
  case jmp x => exact ⟨_, rfl, .jump _ x rfl rfl rfl rfl⟩
  case je x =>
    refine ⟨_, rfl, ?_⟩
    rw [jumpIf, isEqual_eq]
    exact .jump (.je x) x rfl rfl rfl rfl
  case jne x =>
    refine ⟨_, rfl, ?_⟩
    rw [jumpIf, isNotEqual_eq]
    exact .jump (.jne x) x rfl rfl rfl rfl
  case jl x =>
    refine ⟨_, rfl, ?_⟩
    rw [jumpIf, isLess_eq]
    exact .jump (.jl x) x rfl rfl rfl rfl
  case jle x =>
    refine ⟨_, rfl, ?_⟩
    rw [jumpIf, isLessOrEqual_eq]
    exact .jump (.jle x) x rfl rfl rfl rfl
  case jg x =>
    refine ⟨_, rfl, ?_⟩
    rw [jumpIf, isGreater_eq]
    exact .jump (.jg x) x rfl rfl rfl rfl
  case jge x =>
    refine ⟨_, rfl, ?_⟩
    rw [jumpIf, isGreaterOrEqual_eq]
    exact .jump (.jge x) x rfl rfl rfl rfl
  case jeof x =>
    refine ⟨_, rfl, ?_⟩
    rw [jumpIf, isEos_eq]
    exact .jump (.jeof x) x rfl rfl rfl rfl
  case jneof x =>
    refine ⟨_, rfl, ?_⟩
    rw [jumpIf, isNotEos_eq]
    exact .jump (.jneof x) x rfl rfl rfl rfl
  case call x => exact ⟨_, rfl, .call x⟩
  case ret => exact ⟨_, rfl, .ret⟩
  case pushn n => exact ⟨_, rfl, .pushn n⟩
  case outn n => exact ⟨_, rfl, .outn n⟩
  case nop => exact ⟨_, rfl, .nop⟩
  case halt => exact ⟨_, rfl, .halt⟩

/-- The answer of an execute stage has one of the shapes. -/
theorem effect_of_exec {i : Instr} {s t : State} (h : exec i s = .next t) : Effect s i t := by
  obtain ⟨u, hu, e⟩ := exec_effect i s
  cases hu.symm.trans h
  exact e

end Sys2Proof.Machine
end

