-- ==== Sys2Proof/Laws/Decode.lean ====
section
/-! SUPPORT. The rows of the table: every mnemonic is listed, decoding an opcode finds its row,
and an instruction is built back from its own operands (`30_encoding.md` R94, R96). -/

namespace Sys2Proof

theorem mem_all (m : Mnemonic) : m ∈ Mnemonic.all := by cases m <;> decide

/-- An instruction has at most two operand bytes (`30_encoding.md` R90). -/
theorem arity_le_two (m : Mnemonic) : m.arity ≤ 2 := by cases m <;> decide

/-- What decoding an opcode answers is a row with that opcode value. -/
theorem map_of_decodeOpcode {map : OpcodeMap} {op : Byte} {m : Mnemonic}
    (h : decodeOpcode map op = some m) : map m = op := by
  simpa using List.find?_some h

/-- No row is found exactly when no mnemonic has the opcode value. -/
theorem decodeOpcode_eq_none {map : OpcodeMap} {op : Byte} :
    decodeOpcode map op = none ↔ ∀ m, map m ≠ op := by
  simp only [decodeOpcode, List.find?_eq_none, beq_iff_eq]
  exact ⟨fun h m => h m (mem_all m), fun h m _ => h m⟩

/-- Under an injective map an opcode value is decoded to its own row. -/
theorem decodeOpcode_map {map : OpcodeMap} (inj : ∀ m n, map m = map n → m = n)
    (m : Mnemonic) : decodeOpcode map (map m) = some m := by
  cases h : decodeOpcode map (map m) with
  | none => exact absurd rfl (decodeOpcode_eq_none.mp h m)
  | some n => rw [inj n m (map_of_decodeOpcode h)]

@[simp] theorem mnemonic_withOperands (m : Mnemonic) (o1 o2 : Byte) :
    (m.withOperands o1 o2).mnemonic = m := by cases m <;> rfl

@[simp] theorem build_operands (i : Instr) : i.mnemonic.build i.operands = i := by
  cases i <;> rfl

theorem operands_length (i : Instr) : i.operands.length = i.mnemonic.arity := by
  cases i <;> rfl

@[simp] theorem mnemonic_build (m : Mnemonic) (ops : List Byte) :
    (m.build ops).mnemonic = m := mnemonic_withOperands m _ _

/-- The operands of a built instruction are the bytes it was built from. -/
theorem operands_build (m : Mnemonic) (ops : List Byte) (h : ops.length = m.arity) :
    (m.build ops).operands = ops := by
  have h2 := arity_le_two m
  match ops, h with
  | [], h => cases m <;> first | rfl | exact absurd h (by decide)
  | [a], h => cases m <;> first | rfl | exact absurd h (by simp [Mnemonic.arity, Mnemonic.kinds])
  | [a, b], h =>
    cases m <;> first | rfl | exact absurd h (by simp [Mnemonic.arity, Mnemonic.kinds])
  | a :: b :: c :: r, h => simp at h; omega

end Sys2Proof
end

