-- ==== Sys2Proof/Laws/Fetch.lean ====
section
/-! SUPPORT. All that fetching an instruction does: it reads the bytes at PC, moves PC past them
and counts one (`40_execution_cycle.md` R120 to R123), and what a step is then. -/

namespace Sys2Proof.Machine

@[simp] theorem fetchByte_fst (s : State) : (fetchByte s).1 = s.readMem s.pc := rfl
@[simp] theorem fetchByte_snd (s : State) :
    (fetchByte s).2 = s.setReg Reg.pc (s.pc + 1) := rfl

/-- Writing PC twice is writing it once. -/
theorem setReg_setReg (s : State) (r : Reg) (v w : Byte) :
    (s.setReg r v).setReg r w = s.setReg r w := by
  simp [State.setReg]

/-- Writing a register with what it holds changes nothing. -/
theorem setReg_reg (s : State) (r : Reg) : s.setReg r (s.reg r) = s := by
  simp [State.setReg, State.reg]

/-- Fetching a number of bytes moves PC by as many and does nothing else. -/
theorem fetchBytes_snd (n : Nat) (s : State) :
    (fetchBytes n s).2 = s.setReg Reg.pc (s.pc + BitVec.ofNat 8 n) := by
  induction n generalizing s with
  | zero => simp [fetchBytes, State.pc, setReg_reg]
  | succ n ih =>
    simp only [fetchBytes, fetchByte_snd, ih, setReg_setReg, State.pc, reg_setReg_same]
    congr 1
    rw [BitVec.add_assoc, Nat.add_comm n 1, BitVec.ofNat_add]
    rfl

/-- The bytes fetched are those at PC and after, modulo 256. -/
theorem fetchBytes_fst (n : Nat) (s : State) :
    (fetchBytes n s).1 = (List.range n).map fun k => s.readMem (s.pc + BitVec.ofNat 8 k) := by
  induction n generalizing s with
  | zero => rfl
  | succ n ih =>
    simp only [fetchBytes, fetchByte_fst, fetchByte_snd, ih, List.range_succ_eq_map,
      List.map_cons, List.map_map, setReg_readMem, State.pc, reg_setReg_same]
    refine congrArg₂ List.cons (by simp) (List.map_congr_left fun k _ => ?_)
    simp only [Function.comp_apply]
    rw [BitVec.add_assoc, Nat.succ_eq_add_one, Nat.add_comm k 1, BitVec.ofNat_add]
    rfl

/-- All that `fetchInstr` can answer. -/
theorem fetchInstr_cases (map : OpcodeMap) (s : State) :
    (decodeOpcode map (s.readMem s.pc) = none ∧
      fetchInstr map s = (.error (s.readMem s.pc), (s.setReg Reg.pc (s.pc + 1)).tick)) ∨
    (∃ i : Instr, decodeOpcode map (s.readMem s.pc) = some i.mnemonic ∧
      i.operands = ((List.range i.mnemonic.arity).map
        fun k => s.readMem (s.pc + 1 + BitVec.ofNat 8 k)) ∧
      fetchInstr map s =
        (.ok i, (s.setReg Reg.pc (s.pc + BitVec.ofNat 8 (1 + i.mnemonic.arity))).tick)) := by
  unfold fetchInstr
  simp only [fetchByte_fst, fetchByte_snd]
  cases h : decodeOpcode map (s.readMem s.pc) with
  | none => exact .inl ⟨rfl, rfl⟩
  | some m =>
    refine .inr ⟨m.build (fetchBytes m.arity (s.setReg Reg.pc (s.pc + 1)).tick).1, ?_, ?_, ?_⟩
    · simp
    · rw [operands_build _ _ (by simp [fetchBytes_fst])]
      simp [fetchBytes_fst, State.pc]
    · simp only [mnemonic_build, fetchBytes_snd]
      refine Prod.ext rfl ?_
      rw [BitVec.ofNat_add, ← BitVec.add_assoc]
      simp [State.tick, State.setReg, State.pc, State.reg]

/-- A running core's step is the execute stage of what was fetched. -/
theorem stepWith_of_fetch {map : OpcodeMap} {s s' : State} {i : Instr}
    (hr : s.status = .running) (h : fetchInstr map s = (.ok i, s')) :
    stepWith map s = exec i s' := by
  simp [stepWith, hr, h]

/-- A running core's step on an unknown opcode takes the exception. -/
theorem stepWith_of_unknown {map : OpcodeMap} {s s' : State} {op : Byte}
    (hr : s.status = .running) (h : fetchInstr map s = (.error op, s')) :
    stepWith map s = .next (raiseBadInstruction (.unknownOpcode op) s') := by
  simp [stepWith, hr, h]

/-- Outside Running the state answers itself. -/
theorem stepWith_of_not_running {map : OpcodeMap} {s : State} (h : s.status ≠ .running) :
    stepWith map s = .next s := by
  unfold stepWith
  cases hs : s.status <;> simp_all

end Sys2Proof.Machine
end

