-- ==== Sys2Proof/Laws/Run.lean ====
section
/-! SUPPORT. All that one step can do, said once, and the induction over runs. -/

namespace Sys2Proof.Machine

/-- What a completed fetch of an instruction says of its bytes and of the state after it. -/
theorem fetchInstr_ok {map : OpcodeMap} {s s' : State} {i : Instr}
    (h : fetchInstr map s = (.ok i, s')) :
    decodeOpcode map (s.readMem s.pc) = some i.mnemonic ∧
    i.operands = ((List.range i.mnemonic.arity).map
      fun k => s.readMem (s.pc + 1 + BitVec.ofNat 8 k)) ∧
    s' = (s.setReg Reg.pc (s.pc + BitVec.ofNat 8 (1 + i.mnemonic.arity))).tick := by
  rcases fetchInstr_cases map s with ⟨-, e⟩ | ⟨j, hd, ho, e⟩
  · cases e.symm.trans h
  · cases e.symm.trans h
    exact ⟨hd, ho, rfl⟩

/-- What a fetch of an unknown opcode says. -/
theorem fetchInstr_error {map : OpcodeMap} {s s' : State} {op : Byte}
    (h : fetchInstr map s = (.error op, s')) :
    decodeOpcode map (s.readMem s.pc) = none ∧ op = s.readMem s.pc ∧
    s' = (s.setReg Reg.pc (s.pc + 1)).tick := by
  rcases fetchInstr_cases map s with ⟨hn, e⟩ | ⟨j, -, -, e⟩
  · cases e.symm.trans h
    exact ⟨hn, rfl, rfl⟩
  · cases e.symm.trans h

/-- All that a running core's step can do: take the exception on an unknown opcode, or execute
what was fetched. -/
theorem stepWith_cases {map : OpcodeMap} {s t : State} (hr : s.status = .running)
    (h : stepWith map s = .next t) :
    (∃ s', fetchInstr map s = (.error (s.readMem s.pc), s') ∧
      decodeOpcode map (s.readMem s.pc) = none ∧
      s' = (s.setReg Reg.pc (s.pc + 1)).tick ∧
      t = raiseBadInstruction (.unknownOpcode (s.readMem s.pc)) s') ∨
    (∃ i s', fetchInstr map s = (.ok i, s') ∧
      decodeOpcode map (s.readMem s.pc) = some i.mnemonic ∧
      s' = (s.setReg Reg.pc (s.pc + BitVec.ofNat 8 (1 + i.mnemonic.arity))).tick ∧
      exec i s' = .next t ∧ Effect s' i t) := by
  match hf : fetchInstr map s with
  | (.error op, s') =>
    obtain ⟨hn, rfl, hs⟩ := fetchInstr_error hf
    cases (stepWith_of_unknown hr hf).symm.trans h
    exact .inl ⟨s', rfl, hn, hs, rfl⟩
  | (.ok i, s') =>
    obtain ⟨hd, -, hs⟩ := fetchInstr_ok hf
    have he := (stepWith_of_fetch hr hf).symm.trans h
    exact .inr ⟨i, s', rfl, hd, hs, he, effect_of_exec he⟩

/-! ## Runs -/

@[simp] theorem run_zero (s : State) : run 0 s = .next s := rfl

/-- A run of one step more begins with that step. -/
theorem run_succ {k : Nat} {s t : State} (h : step s = .next t) : run (k + 1) s = run k t := by
  have h' : Sys2Proof.core.step s = .next t := h
  simp only [run, Host.Core.run, h']
  rfl

end Sys2Proof.Machine
end

