-- ==== Sys2Proof/Laws/Commute.lean ====
section
/-! SUPPORT. What the core does not look at: an update of the state that is `Transparent` may be
made before an execute stage, a fetch or a step, or after it, with the same outcome. The clock and
the output already written are such (`10_state.md` R38, `40_execution_cycle.md` R129). -/

namespace Sys2Proof.Machine

/-- `g` changes nothing the core reads, and commutes with everything the core writes. -/
structure Transparent (g : State → State) : Prop where
  regs : ∀ s, (g s).regs = s.regs
  mem : ∀ s, (g s).mem = s.mem
  status : ∀ s, (g s).status = s.status
  input : ∀ s, (g s).input = s.input
  outAnswers : ∀ s, (g s).outAnswers = s.outAnswers
  config : ∀ s, (g s).config = s.config
  setReg : ∀ s r v, (g s).setReg r v = g (s.setReg r v)
  writeMem : ∀ s a v, (g s).writeMem a v = g (s.writeMem a v)
  tick : ∀ s, (g s).tick = g s.tick
  setStatus : ∀ s st, (g s).setStatus st = g (s.setStatus st)
  raise : ∀ s f, raiseBadInstruction f (g s) = g (raiseBadInstruction f s)
  setInput : ∀ s bs, (g s).setInput bs = g (s.setInput bs)
  emit : ∀ s b, (g s).emit b = g (s.emit b)
  nextAnswer : ∀ s, (g s).nextAnswer = g s.nextAnswer

/-- The answer with its next state updated. -/
def mapNext (g : State → State) : Answer → Answer
  | .next t => .next (g t)
  | .fault r => .fault r
  | .refused r => .refused r

variable {g : State → State} (hg : Transparent g)
include hg

theorem Transparent.reg (s : State) (r : Reg) : (g s).reg r = s.reg r := by
  simp [State.reg, hg.regs]

theorem Transparent.readMem (s : State) (a : Byte) : (g s).readMem a = s.readMem a := by
  simp [State.readMem, hg.mem]

theorem Transparent.withReg {o : RegByte} {s : State} {f f' : Reg → State}
    (h : ∀ r, f' r = g (f r)) : withReg o (g s) f' = mapNext g (withReg o s f) := by
  unfold Machine.withReg
  cases checkReg o <;> simp [mapNext, hg.raise, h]

theorem Transparent.withRegs {o1 o2 : RegByte} {s : State} {f f' : Reg → Reg → State}
    (h : ∀ r q, f' r q = g (f r q)) :
    withRegs o1 o2 (g s) f' = mapNext g (withRegs o1 o2 s f) := by
  unfold Machine.withRegs
  cases checkReg o1 with
  | none => simp [mapNext, hg.raise]
  | some a => exact hg.withReg (h a)

theorem Transparent.jumpIf (p : Byte → Bool) (t : Addr) (s : State) :
    jumpIf p t (g s) = g (jumpIf p t s) := by
  have e : (g s).cc = s.cc := hg.reg s _
  unfold Machine.jumpIf
  rw [e]
  split
  · exact hg.setReg ..
  · rfl

theorem Transparent.growStack (s : State) : growStack (g s) = g (growStack s) := by
  simp only [Machine.growStack, State.sp, hg.reg, hg.setReg]

theorem Transparent.shrinkStack (s : State) : shrinkStack (g s) = g (shrinkStack s) := by
  simp only [Machine.shrinkStack, State.sp, hg.reg, hg.setReg]

theorem Transparent.storeTop (v : Byte) (s : State) : storeTop v (g s) = g (storeTop v s) := by
  simp only [Machine.storeTop, State.sp, hg.reg, hg.writeMem]

theorem Transparent.loadTop (s : State) : loadTop (g s) = loadTop s := by
  simp only [Machine.loadTop, State.sp, hg.reg, hg.readMem]

theorem Transparent.setEos (s : State) : setEos (g s) = g (setEos s) := by
  simp only [Machine.setEos, State.cc, hg.reg, hg.setReg]

theorem Transparent.readInto (d : Reg) (s : State) : readInto d (g s) = g (readInto d s) := by
  cases h : s.input with
  | nil =>
    rw [readInto_nil h, readInto_nil ((hg.input s).trans h), hg.config, hg.setReg, hg.setEos]
  | cons b rest =>
    rw [readInto_cons h, readInto_cons ((hg.input s).trans h), hg.setInput, hg.setReg]

theorem Transparent.writeOut (b : Byte) (s : State) : writeOut b (g s) = g (writeOut b s) := by
  have e : outOk (g s) = outOk s := by simp [outOk, hg.outAnswers]
  cases h : outOk s with
  | true => rw [writeOut_ok h, writeOut_ok (e.trans h), hg.emit, hg.nextAnswer]
  | false => rw [writeOut_fail h, writeOut_fail (e.trans h), hg.nextAnswer, hg.setEos]

/-- An execute stage commutes with a transparent update. -/
theorem Transparent.exec (i : Instr) (s : State) : exec i (g s) = mapNext g (exec i s) := by
  have rw1 := hg.reg
  have rw2 := hg.readMem
  cases i
  case mov | inc | dec | add | sub | and | or | xor | not | load | store | cmp =>
    exact hg.withRegs fun _ _ => by simp only [hg.setReg, hg.writeMem, rw1, rw2]
  case movn | incn | decn | addn | subn | andn | orn | xorn | notn | loada | storea | cmpn
      | tst =>
    exact hg.withReg fun _ => by simp only [hg.setReg, hg.writeMem, rw1, rw2]
  case push =>
    exact hg.withReg fun _ => by simp only [hg.growStack, hg.storeTop, rw1]
  case pop =>
    exact hg.withReg fun _ => by simp only [hg.loadTop, hg.setReg, hg.shrinkStack]
  case inp => exact hg.withReg fun _ => hg.readInto _ _
  case out => exact hg.withReg fun _ => by simp only [hg.writeOut, rw1]
  case outn => exact congrArg Host.Outcome.next (hg.writeOut _ _)
  case pushn =>
    exact congrArg Host.Outcome.next (by simp only [hg.growStack, hg.storeTop])
  case jmp => exact congrArg Host.Outcome.next (hg.setReg ..)
  case je | jne | jl | jle | jg | jge | jeof | jneof =>
    exact congrArg Host.Outcome.next (hg.jumpIf ..)
  case call =>
    exact congrArg Host.Outcome.next
      (by simp only [hg.growStack, hg.storeTop, hg.setReg, State.pc, rw1])
  case ret =>
    exact congrArg Host.Outcome.next (by simp only [hg.shrinkStack, hg.setReg, hg.loadTop])
  case nop => rfl
  case halt => exact congrArg Host.Outcome.next (hg.setStatus ..)

theorem Transparent.fetchInstr (map : OpcodeMap) (s : State) :
    fetchInstr map (g s) = ((fetchInstr map s).1, g (fetchInstr map s).2) := by
  have hb : ∀ k s, fetchBytes k (g s) = ((fetchBytes k s).1, g (fetchBytes k s).2) := by
    intro k s
    refine Prod.ext ?_ ?_
    · simp only [fetchBytes_fst, State.pc, hg.reg, hg.readMem]
    · simp only [fetchBytes_snd, State.pc, hg.reg, hg.setReg]
  unfold Machine.fetchInstr
  simp only [fetchByte_fst, fetchByte_snd, State.pc, hg.reg, hg.readMem, hg.setReg, hg.tick, hb]
  cases decodeOpcode map (s.readMem (s.reg Reg.pc)) <;> rfl

/-- A step commutes with a transparent update. -/
theorem Transparent.stepWith (map : OpcodeMap) (s : State) :
    stepWith map (g s) = mapNext g (stepWith map s) := by
  have hf := hg.fetchInstr map s
  by_cases hr : s.status = .running
  · have hr' := (hg.status s).trans hr
    match h : Machine.fetchInstr map s with
    | (.error op, s') =>
      rw [h] at hf
      rw [stepWith_of_unknown hr h, stepWith_of_unknown hr' hf, hg.raise]
      rfl
    | (.ok i, s') =>
      rw [h] at hf
      rw [stepWith_of_fetch hr h, stepWith_of_fetch hr' hf, hg.exec]
  · rw [stepWith_of_not_running hr, stepWith_of_not_running (by rwa [hg.status])]
    rfl

end Sys2Proof.Machine
end

