-- ==== Sys2Proof/Laws/Memory.lean ====
section
/-! SUPPORT. Read after write, and that every memory operation keeps the canonical form
(`20_memory.md` R60, R64, R69). -/

namespace Sys2Proof.Machine

/-- A write leaves every other address alone, canonical or not. -/
theorem readAt_writeAt_ne (m : Memory) {a b : Nat} (v : Byte) (h : b ≠ a) :
    (m.writeAt a v).readAt b = m.readAt b := by
  induction m with
  | nil => unfold Memory.writeAt; split <;> simp [Memory.readAt, Ne.symm h]
  | cons c rest ih =>
    obtain ⟨x, w⟩ := c
    unfold Memory.writeAt
    split
    · simp [Memory.readAt, ih]
    · split
      · rename_i hx
        subst hx
        split <;> simp [Memory.readAt, Ne.symm h]
      · split <;> simp [Memory.readAt, Ne.symm h]

/-- Below the first listed address every read gives the unlisted value. -/
theorem readAt_of_lt {m : Memory} {lo a : Nat} (hm : m.wfFrom lo = true) (h : a < lo) :
    m.readAt a = Memory.unlisted := by
  induction m generalizing lo with
  | nil => rfl
  | cons c rest ih =>
    obtain ⟨x, w⟩ := c
    simp only [Memory.wfFrom, Bool.and_eq_true, decide_eq_true_eq] at hm
    have hx : x ≠ a := by omega
    simpa [Memory.readAt, hx] using ih hm.2 (by omega)

/-- On a canonical memory, a read gives the byte just written. -/
theorem readAt_writeAt_same_of_wfFrom {m : Memory} {lo : Nat} (hm : m.wfFrom lo = true)
    (a : Nat) (v : Byte) : (m.writeAt a v).readAt a = v := by
  induction m generalizing lo with
  | nil => unfold Memory.writeAt; split <;> simp_all [Memory.readAt]
  | cons c rest ih =>
    obtain ⟨x, w⟩ := c
    simp only [Memory.wfFrom, Bool.and_eq_true, decide_eq_true_eq] at hm
    unfold Memory.writeAt
    split
    · rename_i hx
      simpa [Memory.readAt, Nat.ne_of_lt hx] using ih hm.2
    · split
      · split
        · rename_i hv
          rw [readAt_of_lt hm.2 (by omega), hv]
        · simp [Memory.readAt]
      · split
        · rename_i hv
          have hx : x ≠ a := by omega
          rw [Memory.readAt, if_neg hx, readAt_of_lt hm.2 (by omega), hv]
        · simp [Memory.readAt]

theorem readAt_writeAt_same {m : Memory} (hm : m.wf = true) (a : Nat) (v : Byte) :
    (m.writeAt a v).readAt a = v := readAt_writeAt_same_of_wfFrom hm a v

/-- A smaller lower bound still holds. -/
theorem wfFrom_mono {m : Memory} {lo lo' : Nat} (h : lo' ≤ lo) (hm : m.wfFrom lo = true) :
    m.wfFrom lo' = true := by
  cases m with
  | nil => rfl
  | cons c rest =>
    obtain ⟨x, w⟩ := c
    simp only [Memory.wfFrom, Bool.and_eq_true, decide_eq_true_eq] at hm ⊢
    exact ⟨⟨⟨by omega, hm.1.1.2⟩, hm.1.2⟩, hm.2⟩

theorem wfFrom_writeAt {m : Memory} {lo a : Nat} (v : Byte) (hm : m.wfFrom lo = true)
    (hlo : lo ≤ a) (ha : a < memSize) : (m.writeAt a v).wfFrom lo = true := by
  induction m generalizing lo with
  | nil => unfold Memory.writeAt; split <;> simp_all [Memory.wfFrom]
  | cons c rest ih =>
    obtain ⟨x, w⟩ := c
    have hm' := hm
    simp only [Memory.wfFrom, Bool.and_eq_true, decide_eq_true_eq] at hm
    unfold Memory.writeAt
    split
    · simp only [Memory.wfFrom, Bool.and_eq_true, decide_eq_true_eq]
      exact ⟨hm.1, ih hm.2 (by omega)⟩
    · split
      · rename_i hx
        subst hx
        split
        · exact wfFrom_mono (by omega) hm.2
        · simp_all [Memory.wfFrom]
      · split
        · exact hm'
        · rename_i hv
          simp only [Memory.wfFrom, Bool.and_eq_true, decide_eq_true_eq, bne_iff_ne]
          exact ⟨⟨⟨hlo, ha⟩, hv⟩, ⟨⟨⟨by omega, hm.1.1.2⟩, by simpa using hm.1.2⟩, hm.2⟩⟩

/-- A write keeps the canonical form. -/
theorem wf_writeAt {m : Memory} {a : Nat} (v : Byte) (hm : m.wf = true) (ha : a < memSize) :
    (m.writeAt a v).wf = true := wfFrom_writeAt v hm (Nat.zero_le a) ha

/-- Writing a list of bytes that ends inside memory keeps the canonical form. -/
theorem wf_writeList {m : Memory} {a : Nat} (vs : List Byte) (hm : m.wf = true)
    (ha : a + vs.length ≤ memSize) : (m.writeList a vs).wf = true := by
  induction vs generalizing m a with
  | nil => exact hm
  | cons v vs ih =>
    simp only [List.length_cons] at ha
    exact ih (wf_writeAt v hm (by omega)) (by omega)

/-- Below the address a list of bytes is written at, nothing changes. -/
theorem readAt_writeList_lt (m : Memory) {a b : Nat} (vs : List Byte) (h : b < a) :
    (m.writeList a vs).readAt b = m.readAt b := by
  induction vs generalizing m a with
  | nil => rfl
  | cons v vs ih =>
    rw [Memory.writeList, ih _ (by omega), readAt_writeAt_ne _ _ (by omega)]

/-- The byte at an address after a list of bytes was written. -/
theorem readAt_writeList {m : Memory} {a : Nat} (vs : List Byte) (hm : m.wf = true)
    (ha : a + vs.length ≤ memSize) (k : Nat) :
    (m.writeList a vs).readAt (a + k) = vs.getD k (m.readAt (a + k)) := by
  induction vs generalizing m a k with
  | nil => simp [Memory.writeList]
  | cons v vs ih =>
    simp only [List.length_cons] at ha
    have hw := wf_writeAt v hm (show a < memSize by omega)
    cases k with
    | zero =>
      rw [Memory.writeList, readAt_writeList_lt _ _ (by omega)]
      simpa using readAt_writeAt_same hm a v
    | succ k =>
      have := ih hw (show a + 1 + vs.length ≤ memSize by omega) k
      rw [show a + 1 + k = a + (k + 1) by omega] at this
      rw [Memory.writeList, this, readAt_writeAt_ne _ _ (by omega)]
      simp

/-- The loaded memory is canonical. -/
theorem wf_ofProgram {p : List Byte} (h : p.length ≤ memSize) :
    (Memory.ofProgram p).wf = true := wf_writeList p rfl (by omega)

/-- The loaded memory: the program's bytes, then zeros (`20_memory.md` R64). -/
theorem readAt_ofProgram {p : List Byte} (h : p.length ≤ memSize) (k : Nat) :
    (Memory.ofProgram p).readAt k = p.getD k 0x00 := by
  simpa [Memory.ofProgram, Memory.readAt, Memory.unlisted] using
    readAt_writeList (m := []) (a := 0) p rfl (by simpa using h) k

/-! ## The state's reads and writes of memory -/

theorem readMem_writeMem_ne (s : State) {a b : Byte} (v : Byte) (h : b ≠ a) :
    (s.writeMem a v).readMem b = s.readMem b :=
  readAt_writeAt_ne _ _ fun e => h (BitVec.eq_of_toNat_eq e)

theorem readMem_writeMem_same {s : State} (hm : s.mem.wf = true) (a v : Byte) :
    (s.writeMem a v).readMem a = v := readAt_writeAt_same hm _ _

theorem wf_writeMem {s : State} (hm : s.mem.wf = true) (a v : Byte) :
    (s.writeMem a v).mem.wf = true := wf_writeAt v hm a.isLt

theorem readMem_storeTop_ne (s : State) {b : Byte} (v : Byte) (h : b ≠ s.sp) :
    (storeTop v s).readMem b = s.readMem b := readMem_writeMem_ne s v h

theorem readMem_storeTop_same {s : State} (hm : s.mem.wf = true) (v : Byte) :
    (storeTop v s).readMem s.sp = v := readMem_writeMem_same hm _ _

theorem wf_storeTop {s : State} (hm : s.mem.wf = true) (v : Byte) :
    (storeTop v s).mem.wf = true := wf_writeMem hm _ _

/-- Storing a list of bytes keeps the canonical form. -/
theorem wf_writeBytes (vs : List Byte) {s : State} (hm : s.mem.wf = true) (a : Byte) :
    (s.writeBytes a vs).mem.wf = true := by
  induction vs generalizing s a with
  | nil => exact hm
  | cons v vs ih => exact ih (wf_writeMem hm a v) (a + 1)

end Sys2Proof.Machine
end

