-- ==== Sys2Proof/Laws/PerInstr.lean ====
section
/-! SUPPORT. Facts about each instruction as syntax, one lemma per constructor. -/

namespace Sys2Proof.Laws.EncodedLength

/-- An instruction is one opcode byte and as many operand bytes as its row's arity, at most two,
under every opcode map (`30_encoding.md` R90). -/
def Statement (i : Instr) : Prop :=
  ∀ map : OpcodeMap,
    (encodeWith map i).length = 1 + i.mnemonic.arity ∧ i.mnemonic.arity ≤ 2

theorem mov (src dst : Byte) : Statement (.mov src dst) := fun _ => ⟨rfl, arity_le_two _⟩
theorem movn (n dst : Byte) : Statement (.movn n dst) := fun _ => ⟨rfl, arity_le_two _⟩
theorem load (src dst : Byte) : Statement (.load src dst) := fun _ => ⟨rfl, arity_le_two _⟩
theorem loada (a dst : Byte) : Statement (.loada a dst) := fun _ => ⟨rfl, arity_le_two _⟩
theorem store (src dst : Byte) : Statement (.store src dst) := fun _ => ⟨rfl, arity_le_two _⟩
theorem storea (src a : Byte) : Statement (.storea src a) := fun _ => ⟨rfl, arity_le_two _⟩
theorem push (src : Byte) : Statement (.push src) := fun _ => ⟨rfl, arity_le_two _⟩
theorem pushn (n : Byte) : Statement (.pushn n) := fun _ => ⟨rfl, arity_le_two _⟩
theorem pop (dst : Byte) : Statement (.pop dst) := fun _ => ⟨rfl, arity_le_two _⟩
theorem inc (src dst : Byte) : Statement (.inc src dst) := fun _ => ⟨rfl, arity_le_two _⟩
theorem incn (n dst : Byte) : Statement (.incn n dst) := fun _ => ⟨rfl, arity_le_two _⟩
theorem dec (src dst : Byte) : Statement (.dec src dst) := fun _ => ⟨rfl, arity_le_two _⟩
theorem decn (n dst : Byte) : Statement (.decn n dst) := fun _ => ⟨rfl, arity_le_two _⟩
theorem add (src dst : Byte) : Statement (.add src dst) := fun _ => ⟨rfl, arity_le_two _⟩
theorem addn (n dst : Byte) : Statement (.addn n dst) := fun _ => ⟨rfl, arity_le_two _⟩
theorem sub (src dst : Byte) : Statement (.sub src dst) := fun _ => ⟨rfl, arity_le_two _⟩
theorem subn (n dst : Byte) : Statement (.subn n dst) := fun _ => ⟨rfl, arity_le_two _⟩
theorem and (src dst : Byte) : Statement (.and src dst) := fun _ => ⟨rfl, arity_le_two _⟩
theorem andn (n dst : Byte) : Statement (.andn n dst) := fun _ => ⟨rfl, arity_le_two _⟩
theorem or (src dst : Byte) : Statement (.or src dst) := fun _ => ⟨rfl, arity_le_two _⟩
theorem orn (n dst : Byte) : Statement (.orn n dst) := fun _ => ⟨rfl, arity_le_two _⟩
theorem xor (src dst : Byte) : Statement (.xor src dst) := fun _ => ⟨rfl, arity_le_two _⟩
theorem xorn (n dst : Byte) : Statement (.xorn n dst) := fun _ => ⟨rfl, arity_le_two _⟩
theorem not (src dst : Byte) : Statement (.not src dst) := fun _ => ⟨rfl, arity_le_two _⟩
theorem notn (n dst : Byte) : Statement (.notn n dst) := fun _ => ⟨rfl, arity_le_two _⟩
theorem cmp (a b : Byte) : Statement (.cmp a b) := fun _ => ⟨rfl, arity_le_two _⟩
theorem cmpn (a n : Byte) : Statement (.cmpn a n) := fun _ => ⟨rfl, arity_le_two _⟩
theorem tst (a : Byte) : Statement (.tst a) := fun _ => ⟨rfl, arity_le_two _⟩
theorem jmp (t : Byte) : Statement (.jmp t) := fun _ => ⟨rfl, arity_le_two _⟩
theorem je (t : Byte) : Statement (.je t) := fun _ => ⟨rfl, arity_le_two _⟩
theorem jne (t : Byte) : Statement (.jne t) := fun _ => ⟨rfl, arity_le_two _⟩
theorem jl (t : Byte) : Statement (.jl t) := fun _ => ⟨rfl, arity_le_two _⟩
theorem jle (t : Byte) : Statement (.jle t) := fun _ => ⟨rfl, arity_le_two _⟩
theorem jg (t : Byte) : Statement (.jg t) := fun _ => ⟨rfl, arity_le_two _⟩
theorem jge (t : Byte) : Statement (.jge t) := fun _ => ⟨rfl, arity_le_two _⟩
theorem jeof (t : Byte) : Statement (.jeof t) := fun _ => ⟨rfl, arity_le_two _⟩
theorem jneof (t : Byte) : Statement (.jneof t) := fun _ => ⟨rfl, arity_le_two _⟩
theorem call (t : Byte) : Statement (.call t) := fun _ => ⟨rfl, arity_le_two _⟩
theorem ret : Statement (.ret) := fun _ => ⟨rfl, arity_le_two _⟩
theorem inp (dst : Byte) : Statement (.inp dst) := fun _ => ⟨rfl, arity_le_two _⟩
theorem out (src : Byte) : Statement (.out src) := fun _ => ⟨rfl, arity_le_two _⟩
theorem outn (n : Byte) : Statement (.outn n) := fun _ => ⟨rfl, arity_le_two _⟩
theorem nop : Statement (.nop) := fun _ => ⟨rfl, arity_le_two _⟩
theorem halt : Statement (.halt) := fun _ => ⟨rfl, arity_le_two _⟩

end Sys2Proof.Laws.EncodedLength
end

