-- ==== Sys2Proof/Tests/Slice0.lean ====
section
/-! SUPPORT. The model's own tests. Expected results are the source examples S1 to S9, the derived
vectors V1 to V90 and the encodings of the spec (`95_test_vectors.md`, `30_encoding.md` R96);
each test names its vector or rule. The witnesses at the end show that the hypotheses of the
obligations can be met. -/

open Sys2Proof Sys2Proof.Machine

namespace Sys2Proof.Tests

/-- A running core with `bytes` at address `a` and PC there; everything else as at power-on. -/
def codeAt (a : Byte) (bytes : List Byte) : State :=
  ((State.reset.setReg Reg.pc a).writeBytes a bytes).setStatus .running

/-- The state after one step. -/
def after (s : State) : State :=
  match step s with
  | .next t => t
  | .fault _ => s
  | .refused _ => s

/-! ## Well-formedness: one ill-formed term for each check, and the bound (R99) -/

theorem test_wf_bound : (Instr.mov 11 11).wf = true ∧ (Instr.mov 12 11).wf = false := by decide
theorem test_wf_second : (Instr.cmp 11 12).wf = false ∧ (Instr.cmp 255 0).wf = false := by decide
theorem test_wf_immReg : (Instr.movn 12 11).wf = true ∧ (Instr.addn 1 12).wf = false := by decide
theorem test_wf_addrReg : (Instr.loada 255 11).wf = true ∧ (Instr.loada 0 12).wf = false := by
  decide
theorem test_wf_regFirst :
    (Instr.storea 11 255).wf = true ∧ (Instr.storea 12 0).wf = false ∧
    (Instr.cmpn 11 12).wf = true ∧ (Instr.cmpn 12 5).wf = false := by decide
theorem test_wf_oneReg :
    (Instr.push 12).wf = false ∧ (Instr.pop 255).wf = false ∧ (Instr.tst 12).wf = false ∧
    (Instr.inp 12).wf = false ∧ (Instr.out 12).wf = false := by decide
theorem test_wf_unchecked :
    (Instr.pushn 255).wf = true ∧ (Instr.outn 12).wf = true ∧ (Instr.jmp 255).wf = true ∧
    Instr.halt.wf = true := by decide

/-! ## Decoding: every row's word, written out from R96 -/

theorem test_decode_dataMovement :
    decode [0x00, 0x04, 0x05] = .instr (.mov 0x04 0x05) [] ∧
    decode [0x01, 0xFF, 0x0B] = .instr (.movn 0xFF 0x0B) [] ∧
    decode [0x02, 0x04, 0x05] = .instr (.load 0x04 0x05) [] ∧
    decode [0x03, 0xFF, 0x04] = .instr (.loada 0xFF 0x04) [] ∧
    decode [0x04, 0x04, 0x05] = .instr (.store 0x04 0x05) [] ∧
    decode [0x05, 0x04, 0x80] = .instr (.storea 0x04 0x80) [] ∧
    decode [0x06, 0x04] = .instr (.push 0x04) [] ∧
    decode [0x07, 0x41] = .instr (.pushn 0x41) [] ∧
    decode [0x08, 0x04] = .instr (.pop 0x04) [] := by decide

theorem test_decode_arithmetic :
    decode [0x09, 0x03, 0x04] = .instr (.inc 0x03 0x04) [] ∧
    decode [0x0A, 0x07, 0x04] = .instr (.incn 0x07 0x04) [] ∧
    decode [0x0B, 0x03, 0x04] = .instr (.dec 0x03 0x04) [] ∧
    decode [0x0C, 0x00, 0x04] = .instr (.decn 0x00 0x04) [] ∧
    decode [0x0D, 0x04, 0x05] = .instr (.add 0x04 0x05) [] ∧
    decode [0x0E, 0x01, 0x04] = .instr (.addn 0x01 0x04) [] ∧
    decode [0x0F, 0x04, 0x05] = .instr (.sub 0x04 0x05) [] ∧
    decode [0x10, 0x01, 0x04] = .instr (.subn 0x01 0x04) [] := by decide

theorem test_decode_bitwise :
    decode [0x11, 0x04, 0x05] = .instr (.and 0x04 0x05) [] ∧
    decode [0x12, 0x0F, 0x04] = .instr (.andn 0x0F 0x04) [] ∧
    decode [0x13, 0x04, 0x05] = .instr (.or 0x04 0x05) [] ∧
    decode [0x14, 0x80, 0x04] = .instr (.orn 0x80 0x04) [] ∧
    decode [0x15, 0x04, 0x05] = .instr (.xor 0x04 0x05) [] ∧
    decode [0x16, 0xFF, 0x04] = .instr (.xorn 0xFF 0x04) [] ∧
    decode [0x17, 0x04, 0x05] = .instr (.not 0x04 0x05) [] ∧
    decode [0x18, 0x0F, 0x04] = .instr (.notn 0x0F 0x04) [] := by decide

theorem test_decode_comparison :
    decode [0x19, 0x04, 0x05] = .instr (.cmp 0x04 0x05) [] ∧
    decode [0x1A, 0x04, 0x0C] = .instr (.cmpn 0x04 0x0C) [] ∧
    decode [0x1B, 0x03] = .instr (.tst 0x03) [] := by decide

theorem test_decode_controlTransfer :
    decode [0x1C, 0x40] = .instr (.jmp 0x40) [] ∧ decode [0x1D, 0x40] = .instr (.je 0x40) [] ∧
    decode [0x1E, 0x06] = .instr (.jne 0x06) [] ∧ decode [0x1F, 0x40] = .instr (.jl 0x40) [] ∧
    decode [0x20, 0x40] = .instr (.jle 0x40) [] ∧ decode [0x21, 0x40] = .instr (.jg 0x40) [] ∧
    decode [0x22, 0x0F] = .instr (.jge 0x0F) [] ∧ decode [0x23, 0x08] = .instr (.jeof 0x08) [] ∧
    decode [0x24, 0x00] = .instr (.jneof 0x00) [] ∧
    decode [0x25, 0x0A] = .instr (.call 0x0A) [] ∧ decode [0x26] = .instr .ret [] := by decide

theorem test_decode_io_nop_halt :
    decode [0x27, 0x04] = .instr (.inp 0x04) [] ∧ decode [0x28, 0x04] = .instr (.out 0x04) [] ∧
    decode [0x29, 0x0A] = .instr (.outn 0x0A) [] ∧ decode [0x2A] = .instr .nop [] ∧
    decode [0x2B, 0x00] = .instr .halt [0x00] := by decide

/-- R98: the first unassigned byte and the last; R90: a word cut short. -/
theorem test_decode_rejects :
    decode [0x2C, 0x00, 0x00] = .unknownOpcode 0x2C ∧ decode [0xFF] = .unknownOpcode 0xFF ∧
    decode [0x00, 0x04] = .truncated ∧ decode [] = .truncated := by decide

/-- R95: a row's position in the shared table is its opcode value; 44 rows (R96). -/
theorem test_opcode_is_position :
    sharedOpcodeTable.length = 44 ∧
    (sharedOpcodeTable.map fun r => (opcodeMap r.1).toNat) = List.range 44 := by decide

/-- The word `MOVN 0xFF, R7` of R141 numbered with bit 0 the least significant of byte 0, and
operand bytes beyond `nbits` read as zero. -/
theorem test_tableWord :
    decodeTableWord 24 0x0BFF01 = some (.movn 0xFF 0x0B) ∧
    decodeTableWord 8 0x0BFF01 = some (.movn 0x00 0x00) ∧
    decodeTableWord 8 0x2B = some .halt ∧ decodeTableWord 8 0x2C = none := by decide

/-- `withFetchWord` at reset: HALT runs as the first instruction (V85 at address 0). -/
theorem test_withFetchWord :
    (after (State.reset.withFetchWord 8 0x2B)).status = .halted ∧
    (after (State.reset.withFetchWord 24 0x0BFF01)).reg 11 = 0xFF := by decide

/-! ## Data movement -/

/-- V1. -/
theorem test_mov :
    let t := after ((codeAt 0x00 [0x00, 0x04, 0x05]).setReg 4 0xAB)
    t.reg 5 = 0xAB ∧ t.pc = 0x03 ∧ t.clock = 1 := by decide
/-- V2. -/
theorem test_mov_pc_source : (after (codeAt 0x10 [0x00, 0x00, 0x04])).reg 4 = 0x13 := by decide
/-- V7. -/
theorem test_movn_unchecked :
    let t := after (codeAt 0x00 [0x01, 0x0C, 0x04]); t.reg 4 = 0x0C ∧ t.status = .running := by
  decide
/-- V88: the fetch wraps past address 255. -/
theorem test_movn_wraps :
    let t := after (codeAt 0xFF [0x01, 0xAA, 0x04]); t.reg 4 = 0xAA ∧ t.pc = 0x02 := by decide
/-- V9. -/
theorem test_load_same :
    (after (((codeAt 0x00 [0x02, 0x04, 0x04]).setReg 4 0x80).writeMem 0x80 0x5A)).reg 4 = 0x5A := by
  decide
/-- V10. -/
theorem test_loada :
    (after ((codeAt 0x00 [0x03, 0xFF, 0x04]).writeMem 0xFF 0x77)).reg 4 = 0x77 := by decide
/-- V11. -/
theorem test_store :
    (after (((codeAt 0x00 [0x04, 0x04, 0x05]).setReg 4 0x11).setReg 5 0x90)).readMem 0x90 = 0x11 := by
  decide
/-- V12: its own third byte. -/
theorem test_storea_own_byte :
    let t := after ((codeAt 0x00 [0x05, 0x04, 0x02]).setReg 4 0x99)
    t.readMem 0x02 = 0x99 ∧ t.pc = 0x03 := by decide
/-- V13. -/
theorem test_push_wraps :
    let t := after ((codeAt 0x00 [0x06, 0x04]).setReg 4 0x41)
    t.sp = 0xFF ∧ t.readMem 0xFF = 0x41 := by decide
/-- V14. -/
theorem test_push_sp :
    let t := after (codeAt 0x00 [0x06, 0x01]); t.sp = 0xFF ∧ t.readMem 0xFF = 0xFF := by decide
/-- V16. -/
theorem test_pushn :
    let t := after ((codeAt 0x00 [0x07, 0x0C]).setReg Reg.sp 0x80)
    t.sp = 0x7F ∧ t.readMem 0x7F = 0x0C := by decide
/-- V17. -/
theorem test_pop :
    let t := after (((codeAt 0x00 [0x08, 0x04]).setReg Reg.sp 0xFF).writeMem 0xFF 0x41)
    t.reg 4 = 0x41 ∧ t.sp = 0x00 ∧ t.readMem 0xFF = 0x41 := by decide
/-- V18. -/
theorem test_pop_sp :
    (after (((codeAt 0x00 [0x08, 0x01]).setReg Reg.sp 0xFE).writeMem 0xFE 0x20)).sp = 0x21 := by
  decide

/-! ## Arithmetic and bitwise -/

/-- V20. -/
theorem test_inc_wraps :
    (after ((codeAt 0x00 [0x09, 0x04, 0x04]).setReg 4 0xFF)).reg 4 = 0x00 := by decide
/-- V21. -/
theorem test_inc_other :
    let t := after ((codeAt 0x00 [0x09, 0x04, 0x05]).setReg 4 0x07)
    t.reg 5 = 0x08 ∧ t.reg 4 = 0x07 := by decide
/-- V22. -/
theorem test_incn :
    (after ((codeAt 0x00 [0x0A, 0xFF, 0x04]).setReg 4 0x55)).reg 4 = 0x00 := by decide
/-- V23. -/
theorem test_dec_wraps : (after (codeAt 0x00 [0x0B, 0x04, 0x04])).reg 4 = 0xFF := by decide
/-- V24. -/
theorem test_decn : (after (codeAt 0x00 [0x0C, 0x00, 0x04])).reg 4 = 0xFF := by decide
/-- V26. -/
theorem test_add :
    (after (((codeAt 0x00 [0x0D, 0x04, 0x05]).setReg 4 0x03).setReg 5 0x05)).reg 5 = 0x08 := by
  decide
/-- V27, the source's example S4: no flag changes. -/
theorem test_addn_no_flags :
    let t := after (((codeAt 0x00 [0x0E, 0x01, 0x04]).setReg 4 0xFF).setReg Reg.cc 0x02)
    t.reg 4 = 0x00 ∧ t.cc = 0x02 := by decide
/-- V29. -/
theorem test_addn_pc : (after (codeAt 0x10 [0x0E, 0x02, 0x00])).pc = 0x15 := by decide
/-- V31. -/
theorem test_sub_direction :
    (after (((codeAt 0x00 [0x0F, 0x04, 0x05]).setReg 4 0x03).setReg 5 0x05)).reg 5 = 0x02 := by
  decide
/-- V32. -/
theorem test_sub_borrow :
    (after (((codeAt 0x00 [0x0F, 0x05, 0x04]).setReg 4 0x03).setReg 5 0x05)).reg 4 = 0xFE := by
  decide
/-- V35: a jump to itself. -/
theorem test_subn_pc : (after (codeAt 0x10 [0x10, 0x03, 0x00])).pc = 0x10 := by decide
/-- V36. -/
theorem test_and :
    (after (((codeAt 0x00 [0x11, 0x04, 0x05]).setReg 4 0xF0).setReg 5 0x3C)).reg 5 = 0x30 := by
  decide
/-- V37. -/
theorem test_andn :
    (after ((codeAt 0x00 [0x12, 0x0F, 0x04]).setReg 4 0xA5)).reg 4 = 0x05 := by decide
/-- V38. -/
theorem test_or :
    (after (((codeAt 0x00 [0x13, 0x04, 0x05]).setReg 4 0xF0).setReg 5 0x0C)).reg 5 = 0xFC := by
  decide
/-- V39. -/
theorem test_orn :
    (after ((codeAt 0x00 [0x14, 0x80, 0x04]).setReg 4 0x01)).reg 4 = 0x81 := by decide
/-- V40. -/
theorem test_xor :
    (after (((codeAt 0x00 [0x15, 0x04, 0x05]).setReg 4 0xFF).setReg 5 0x0F)).reg 5 = 0xF0 := by
  decide
/-- V42. -/
theorem test_xorn :
    (after ((codeAt 0x00 [0x16, 0xFF, 0x04]).setReg 4 0xA5)).reg 4 = 0x5A := by decide
/-- V43. -/
theorem test_not :
    let t := after ((codeAt 0x00 [0x17, 0x04, 0x05]).setReg 4 0xA5)
    t.reg 5 = 0x5A ∧ t.reg 4 = 0xA5 := by decide
/-- V45. -/
theorem test_notn : (after (codeAt 0x00 [0x18, 0x0F, 0x04])).reg 4 = 0xF0 := by decide

/-! ## Comparison -/

/-- V54: unsigned. -/
theorem test_cmp_unsigned :
    (after ((codeAt 0x00 [0x19, 0x04, 0x05]).setReg 5 0xFF)).cc = 0x02 := by decide
/-- V56: the old CC is read before the write. -/
theorem test_cmp_cc :
    (after (((codeAt 0x00 [0x19, 0x02, 0x04]).setReg Reg.cc 0x04).setReg 4 0x04)).cc = 0x01 := by
  decide
/-- V49: bits 7:2 cleared. -/
theorem test_cmpn_less :
    (after (((codeAt 0x00 [0x1A, 0x04, 0x05]).setReg 4 0x03).setReg Reg.cc 0xFF)).cc = 0x02 := by
  decide
/-- V50. -/
theorem test_cmpn_greater :
    (after ((codeAt 0x00 [0x1A, 0x04, 0x05]).setReg 4 0x09)).cc = 0x00 := by decide
/-- V58. -/
theorem test_tst_nonzero :
    (after (((codeAt 0x00 [0x1B, 0x03]).setReg Reg.xr 0xFF).setReg Reg.cc 0x06)).cc = 0x00 := by
  decide
/-- V59: PC reads as zero after the wrap. -/
theorem test_tst_pc :
    let t := after ((codeAt 0xFE [0x1B, 0x00]).setReg Reg.cc 0x06)
    t.cc = 0x01 ∧ t.pc = 0x00 := by decide

/-! ## Control transfer -/

/-- Whether a conditional jump is taken when CC holds `c`. -/
def taken (op c : Byte) : Bool :=
  (after ((codeAt 0x10 [op, 0x40]).setReg Reg.cc c)).pc == 0x40

/-- V65. -/
theorem test_jmp : (after (codeAt 0x10 [0x1C, 0x40])).pc = 0x40 := by decide
/-- The columns JE and JNE of the predicate table, CC from 0 to 7. -/
theorem test_je_jne :
    [0, 1, 2, 3, 4, 5, 6, 7].map (taken 0x1D) = [false, true, false, true, false, true, false, true] ∧
    [0, 1, 2, 3, 4, 5, 6, 7].map (taken 0x1E) = [true, false, true, false, true, false, true, false] := by
  decide
/-- The columns JL and JLE. -/
theorem test_jl_jle :
    [0, 1, 2, 3, 4, 5, 6, 7].map (taken 0x1F) = [false, false, true, true, false, false, true, true] ∧
    [0, 1, 2, 3, 4, 5, 6, 7].map (taken 0x20) = [false, true, true, true, false, true, true, true] := by
  decide
/-- The columns JG and JGE. -/
theorem test_jg_jge :
    [0, 1, 2, 3, 4, 5, 6, 7].map (taken 0x21) = [true, false, false, false, true, false, false, false] ∧
    [0, 1, 2, 3, 4, 5, 6, 7].map (taken 0x22) = [true, true, false, false, true, true, false, false] := by
  decide
/-- The columns JEOF and JNEOF. -/
theorem test_jeof_jneof :
    [0, 1, 2, 3, 4, 5, 6, 7].map (taken 0x23) = [false, false, false, false, true, true, true, true] ∧
    [0, 1, 2, 3, 4, 5, 6, 7].map (taken 0x24) = [true, true, true, true, false, false, false, false] := by
  decide
/-- V69: bits 7:3 are ignored. -/
theorem test_jg_ignores_high_bits : taken 0x21 0xF8 = true := by decide
/-- V73: not taken, and PC wraps. -/
theorem test_je_not_taken_wraps : (after (codeAt 0xFE [0x1D, 0xFF])).pc = 0x00 := by decide
/-- V60. -/
theorem test_call :
    let t := after (codeAt 0x03 [0x25, 0x0A])
    t.sp = 0xFF ∧ t.readMem 0xFF = 0x05 ∧ t.pc = 0x0A := by decide
/-- V61: the return address overwrites the call's own operand byte. -/
theorem test_call_over_itself :
    let t := after (codeAt 0xFE [0x25, 0x30]); t.pc = 0x30 ∧ t.readMem 0xFF = 0x00 := by decide
/-- V63. -/
theorem test_ret :
    let t := after (((codeAt 0x11 [0x26]).setReg Reg.sp 0xFF).writeMem 0xFF 0x05)
    t.pc = 0x05 ∧ t.sp = 0x00 := by decide
/-- V64: underflow is no fault. -/
theorem test_ret_underflow :
    let t := after ((codeAt 0x10 [0x26]).writeMem 0x00 0x07); t.pc = 0x07 ∧ t.sp = 0x01 := by
  decide

/-! ## Input, output, no-op, halt -/

/-- V74. -/
theorem test_in :
    let t := after (((codeAt 0x00 [0x27, 0x04]).setReg Reg.cc 0x01).setInput [0x48, 0x69])
    t.reg 4 = 0x48 ∧ t.input = [0x69] ∧ t.cc = 0x01 := by decide
/-- V76. -/
theorem test_in_cc_at_end :
    (after ((codeAt 0x00 [0x27, 0x02]).setReg Reg.cc 0x01)).cc = 0x04 := by decide
/-- V79. -/
theorem test_out :
    (after ((codeAt 0x00 [0x28, 0x04]).setReg 4 0x48)).output = [0x48] := by decide
/-- V80: the write fails. -/
theorem test_out_fails :
    let s := ((codeAt 0x00 [0x28, 0x04]).setReg 4 0x48).setReg Reg.cc 0x01
    let t := after { s with outAnswers := [false] }
    t.output = [] ∧ t.cc = 0x05 ∧ t.status = .running := by decide
/-- V82. -/
theorem test_outn : (after (codeAt 0x00 [0x29, 0x0A])).output = [0x0A] := by decide
/-- V84. -/
theorem test_nop :
    let t := after { codeAt 0x09 [0x2A] with clock := 4 }; t.pc = 0x0A ∧ t.clock = 5 := by decide
/-- V85. -/
theorem test_halt :
    let t := after { codeAt 0x08 [0x2B] with clock := 7 }
    t.pc = 0x09 ∧ t.clock = 8 ∧ t.status = .halted := by decide

/-! ## The exception, load and run -/

/-- V86. -/
theorem test_unknown_opcode :
    let t := after (codeAt 0x00 [0x2C]); t.status = .faulted ∧ t.pc = 0x01 ∧ t.clock = 1 := by
  decide
/-- V4: the bad second operand. -/
theorem test_mov_bad_register :
    let t := after ((codeAt 0x00 [0x00, 0x04, 0x0C]).setReg 4 0x01)
    t.status = .faulted ∧ t.pc = 0x03 ∧ t.reg 4 = 0x01 := by decide
/-- V15: SP has not moved. -/
theorem test_push_bad_register :
    let t := after (codeAt 0x00 [0x06, 0x0C]); t.status = .faulted ∧ t.sp = 0x00 ∧ t.pc = 0x02 := by
  decide
/-- V77: no input byte is consumed. -/
theorem test_in_bad_register :
    let t := after ((codeAt 0x00 [0x27, 0x0C]).setInput [0x41])
    t.status = .faulted ∧ t.input = [0x41] := by decide
/-- S7. -/
theorem test_call_return_program :
    let r := loadAndRun 3 [0x25, 0x03, 0x2B, 0x26] State.reset
    r.1 = some .success ∧ r.2.pc = 0x03 ∧ r.2.clock = 3 := by decide
/-- S8, as `90_conflicts.md` C1 resolves it. -/
theorem test_fault_program :
    let r := loadAndRun 2 [0x2A, 0x2C] State.reset
    r.1 = some .badInstruction ∧ r.2.clock = 2 ∧ r.2.pc = 0x02 := by decide
/-- P6: self-modifying code. -/
theorem test_self_modifying :
    let r := loadAndRun 3 [0x01, 0x2B, 0x04, 0x05, 0x04, 0x06, 0x2A, 0x2A, 0x2A] State.reset
    r.1 = some .success ∧ r.2.pc = 0x07 ∧ r.2.clock = 3 := by decide
/-- S1. -/
theorem test_too_large :
    loadAndRun 1 (List.replicate 257 0x2B) State.reset = (some .programTooLarge, State.reset) := by
  have h : loadProgram (List.replicate 257 0x2B) State.reset = .fault .programTooLarge := by
    rw [loadProgram, if_neg (by decide), if_pos (by rw [List.length_replicate]; decide)]
  rw [loadAndRun, h]

/-! ## Witnesses: the hypotheses of the obligations can be met -/

/-- An injective opcode map other than the default. -/
def shiftedMap : OpcodeMap := fun m => opcodeMap m + 0x40

theorem witness_injective_map : ∀ m n, shiftedMap m = shiftedMap n → m = n := by
  have hd : ∀ m, decodeOpcode shiftedMap (shiftedMap m) = some m := by
    intro m
    cases m <;> decide
  intro m n h
  exact Option.some.inj (by rw [← hd m, ← hd n, h])

theorem witness_EncodeOfDecode :
    decodeWith shiftedMap [0x65, 0x0A, 0x07] = .instr (.call 0x0A) [0x07] := by decide

/-- A running core about to call. -/
def callState : State := codeAt 0x03 [0x25, 0x0A]

theorem witness_StepRunsDecodedInstruction : callState.status = .running ∧
    decode [callState.readMem callState.pc, callState.readMem (callState.pc + 1),
      callState.readMem (callState.pc + 2)] = .instr (.call 0x0A) [0x00] := by decide

theorem witness_FetchAdvancesPc :
    let s := codeAt 0x00 [0x1D, 0x40]
    s.status = .running ∧ (fetchInstr opcodeMap s).1 = .ok (.je 0x40) ∧
    (after s).status ≠ .faulted ∧
    Instr.transfers (fetchInstr opcodeMap s).2.cc (.je 0x40) = false ∧
    (Instr.je 0x40).dst? ≠ some Reg.pc.toByte := by decide

/-- The replacing clauses of FetchAdvancesPc: a taken transfer, RET, MOVN and MOV into PC. -/
theorem witness_FetchAdvancesPc_replaced :
    (fetchInstr opcodeMap callState).1 = .ok (.call 0x0A) ∧ (after callState).status ≠ .faulted ∧
    Instr.transfers (fetchInstr opcodeMap callState).2.cc (.call 0x0A) = true ∧
    (fetchInstr opcodeMap (codeAt 0xFF [0x26])).1 = .ok .ret ∧
    (fetchInstr opcodeMap (codeAt 0xFE [0x01, 0xFF, 0x00])).1 = .ok (.movn 0xFF Reg.pc.toByte) ∧
    (fetchInstr opcodeMap (codeAt 0x00 [0x00, 0x0B, 0x00])).1 =
      .ok (.mov (Reg.toByte 11) Reg.pc.toByte) := by decide

/-- The premise of StoreResults, PushResults, CallRetResults, CallThenRet, ReadAfterWrite and
StoreSeenByFetch. -/
theorem witness_canonical_memory : callState.mem.wf = true ∧ callState.mem ≠ [] := by decide

theorem witness_PushThenPop : callState.mem.wf = true ∧ (4 : Reg) ≠ Reg.sp ∧ Reg.pc ≠ Reg.sp := by
  decide

theorem witness_CallThenRet :
    let t := after callState
    let u := t.setReg Reg.pc 0x77
    u.sp = t.sp ∧ u.readMem u.sp = t.readMem t.sp := by decide

theorem witness_CallStep : callState.mem.wf = true ∧ callState.status = .running ∧
    callState.readMem callState.pc = opcodeMap .call := by decide

theorem witness_TargetIsOperandByte :
    (∀ i ∈ [Instr.je 0xFF, .jle 0x80, .jge 0x00, .jmp 0xFF, .call 0x00, .jneof 0x03],
      Instr.transfers (State.reset.setReg Reg.cc 0x01).cc i = true) ∧
    (∀ i ∈ [Instr.jl 0xFF, .jne 0x00], Instr.transfers (State.reset.setReg Reg.cc 0x02).cc i = true) ∧
    Instr.transfers State.reset.cc (.jg 0xFF) = true ∧
    Instr.transfers (State.reset.setReg Reg.cc 0x04).cc (.jeof 0x00) = true := by decide

theorem witness_InResults : (State.reset.setInput [0x41]).input = 0x41 :: [] ∧
    State.reset.input = [] := by decide

theorem witness_OutResults : State.reset.outAnswers.headD true = true ∧
    ({ State.reset with outAnswers := [false] } : State).outAnswers.headD true = false := by decide

theorem witness_EndOfInputThenJeof : State.reset.input = [] ∧
    (State.reset.setInput [0x00]).input ≠ [] ∧ (4 : Reg) ≠ Reg.cc := by decide

theorem witness_NopHaltSteps :
    (codeAt 0x00 [0x2A]).status = .running ∧ (codeAt 0x00 [0x2A]).readMem 0x00 = opcodeMap .nop ∧
    (codeAt 0x00 [0x2B]).readMem 0x00 = opcodeMap .halt := by decide

theorem witness_UnknownOpcodeTakesException :
    (codeAt 0x00 [0x2C]).status = .running ∧
    ∀ m, opcodeMap m ≠ (codeAt 0x00 [0x2C]).readMem (codeAt 0x00 [0x2C]).pc := by
  refine ⟨by decide, fun m => ?_⟩
  cases m <;> decide

theorem witness_BadOperand : ¬ (Instr.cmp 0x0C 0xFF).WellFormed ∧ ¬ (Instr.pop 0x0C).WellFormed ∧
    State.reset.status ≠ .faulted := by decide

/-- The premises of BadInstructionIsTheOnlyException and FaultingStepFrame, both ways to fault. -/
theorem witness_faulting_steps :
    (codeAt 0x00 [0xFF]).status = .running ∧ (after (codeAt 0x00 [0xFF])).status = .faulted ∧
    (after (codeAt 0x00 [0x06, 0x0C])).status = .faulted := by decide

theorem witness_FrozenOutsideRunning : State.reset.status ≠ .running ∧
    (after (codeAt 0x00 [0x2B])).status ≠ .running := by decide

theorem witness_WellFormedCodeRunsSafely : callState.status ≠ .faulted ∧
    ∀ j u, j < 1 → run j callState = .next u → u.status = .running →
      ∃ i s', fetchInstr opcodeMap u = (.ok i, s') ∧ i.WellFormed := by
  refine ⟨by decide, fun j u hj h _ => ?_⟩
  obtain rfl : j = 0 := by omega
  cases h
  exact ⟨.call 0x0A, _, rfl, by decide⟩

/-- Two steps of NOP then HALT: a running state, then a terminal one. -/
theorem witness_ClockCountsFetches :
    (codeAt 0x00 [0x2A, 0x2B]).status = .running ∧
    (after (codeAt 0x00 [0x2A, 0x2B])).status = .running ∧
    (after (after (codeAt 0x00 [0x2A, 0x2B]))).status = .halted := by decide

theorem witness_WhatWritesCC :
    (Instr.tst 0x04).isComparison = true ∧ (Instr.tst 0x04).WellFormed ∧
    (Instr.inp 0x04).isIO = true ∧ (Instr.inp 0x04).WellFormed ∧
    (Instr.inp 0x04).dst? ≠ some Reg.cc.toByte := by decide

theorem witness_EosFlagIsSticky :
    (State.reset.setReg Reg.cc 0x04).cc.getLsbD 2 = true ∧
    (Instr.inp 0x04).isComparison = false ∧ (Instr.inp 0x04).dst? ≠ some Reg.cc.toByte := by decide

/-- An exec answer for the statements about every execute stage. -/
theorem witness_exec_answers : ∃ t, exec (.store 0x04 0x05) callState = .next t ∧
    storeTarget callState (.store 0x04 0x05) ≠ some 0x03 := ⟨_, rfl, by decide⟩

/-- Two states that differ in the input beyond its head and in the output already written. -/
theorem witness_StepReadsNothingElse :
    let s1 := (codeAt 0x00 [0x27, 0x04]).setInput [0x41]
    let s2 := ((codeAt 0x00 [0x27, 0x04]).setInput [0x41, 0x42]).emit 0x07
    s1.regs = s2.regs ∧ s1.mem = s2.mem ∧ s1.clock = s2.clock ∧ s1.status = s2.status ∧
    s1.faultInfo = s2.faultInfo ∧ s1.config = s2.config ∧ s1.status = .running ∧
    s1.input.head? = s2.input.head? ∧ s1.outAnswers.headD true = s2.outAnswers.headD true ∧
    s1 ≠ s2 ∧ (after s1).reg 4 = 0x41 := by decide

theorem witness_load : State.reset.status ≠ .running ∧ ([0x2B] : List Byte).length ≤ 256 ∧
    256 < (List.replicate 257 (0x2B : Byte)).length ∧
    (List.replicate 256 (0x2B : Byte)).length ≤ 256 := by
  simp only [List.length_replicate]; decide

/-- Two different earlier states for RunsAreIndependent, one of them after a faulted run. -/
theorem witness_RunsAreIndependent :
    let s2 := after (codeAt 0x00 [0xFF])
    State.reset.input = s2.input ∧ State.reset.outAnswers = s2.outAnswers ∧
    State.reset.config = s2.config ∧ State.reset ≠ s2 := by decide

theorem witness_invariant : Inv callState ∧ Inv (after (codeAt 0x00 [0xFF])) := by decide

end Sys2Proof.Tests
end

/-! SUPPORT. The cycle clock is not looked at (`10_state.md` R38): starting it ahead is a
`Transparent` update, transparent updates commute with whole runs, and no execute stage writes it. -/

namespace Sys2Proof.Machine

/-! ## Runs -/

/-- A step always answers a next state. -/
theorem stepWith_total (map : OpcodeMap) (s : State) : ∃ t, stepWith map s = .next t := by
  by_cases hr : s.status = .running
  · match hf : fetchInstr map s with
    | (.error op, s') => exact ⟨_, stepWith_of_unknown hr hf⟩
    | (.ok i, s') =>
      obtain ⟨t, ht, -⟩ := exec_effect i s'
      exact ⟨t, (stepWith_of_fetch hr hf).trans ht⟩
  · exact ⟨s, stepWith_of_not_running hr⟩

/-- A run commutes with a transparent update. -/
theorem Transparent.run {g : State → State} (hg : Transparent g) (k : Nat) (s : State) :
    run k (g s) = mapNext g (run k s) := by
  induction k generalizing s with
  | zero => rfl
  | succ k ih =>
    obtain ⟨t, ht⟩ := stepWith_total opcodeMap s
    have hgt : step (g s) = .next (g t) :=
      (hg.stepWith opcodeMap s).trans (congrArg (mapNext g) ht)
    rw [run_succ hgt, run_succ ht, ih]

/-! ## The clock -/

/-- The same state with the clock `n` ahead. -/
def advanceClock (n : Nat) (s : State) : State := { s with clock := s.clock + n }

/-- Nothing but `tick` touches the clock, and counting commutes with being ahead. -/
theorem transparent_advanceClock (n : Nat) : Transparent (advanceClock n) where
  regs _ := rfl
  mem _ := rfl
  status _ := rfl
  input _ := rfl
  outAnswers _ := rfl
  config _ := rfl
  setReg _ _ _ := rfl
  writeMem _ _ _ := rfl
  tick s := by simp only [State.tick, advanceClock, Nat.add_right_comm]
  setStatus _ _ := rfl
  raise _ _ := rfl
  setInput _ _ := rfl
  emit _ _ := rfl
  nextAnswer _ := rfl

@[simp] theorem readInto_clock (d : Reg) (s : State) : (readInto d s).clock = s.clock := by
  cases h : s.input with
  | nil => simp [readInto_nil h]
  | cons b rest => simp [readInto_cons h]

@[simp] theorem writeOut_clock (b : Byte) (s : State) : (writeOut b s).clock = s.clock := by
  cases h : outOk s with
  | true => simp [writeOut_ok h]
  | false => simp [writeOut_fail h]

/-- No shape of an execute stage counts a cycle: only the fetch does. -/
theorem Effect.clock {s t : State} {i : Instr} (h : Effect s i t) : t.clock = s.clock := by
  cases h with
  | bad | result | store | push | pushn | pop | compare | call | ret | nop | halt => simp
  | inp d => exact readInto_clock d s
  | out r => exact writeOut_clock (s.reg r) s
  | outn n => exact writeOut_clock n s
  | jump =>
    split
    · exact setReg_clock ..
    · rfl

/-- `clock()` answers the clock when no run is in progress (`70_reset_and_hazards.md` R278). -/
theorem hostClock_of_not_running {s : State} (h : s.status ≠ .running) :
    hostClock s = some s.clock := if_neg h

/-- Settles O46: a clock that starts ahead is a transparent update, which commutes with every
run; no shape of an execute stage writes the clock; and `clock()` shows it outside a run. -/
theorem clockIsNeverRead : Obligations.ClockIsNeverRead := by
  unfold Obligations.ClockIsNeverRead
  refine ⟨fun k n s t h => ?_, fun i s t h => (effect_of_exec h).clock,
    fun _ => hostClock_of_not_running⟩
  calc run k (advanceClock n s)
      = mapNext (advanceClock n) (run k s) := (transparent_advanceClock n).run k s
    _ = .next (advanceClock n t) := congrArg (mapNext (advanceClock n)) h

end Sys2Proof.Machine

/-! SUPPORT. Which instructions fault (`30_encoding.md` R99): being well formed is a check of each
operand byte by its kind, and an execute stage faults exactly when that check fails. -/

namespace Sys2Proof

/-! ## Well-formedness, by the kinds of the operand bytes -/

/-- The check of one operand byte: only kind R is looked at (`30_encoding.md` R93). -/
def operandLegal (p : OperandKind × Byte) : Bool := p.1 != .reg || RegByte.ok p.2

theorem operandLegal_eq_false {p : OperandKind × Byte} :
    operandLegal p = false ↔ p.1 = .reg ∧ 12 ≤ p.2.toNat := by
  simp [operandLegal, RegByte.ok]

/-- The table of `Instr.wf` is the check of each operand byte by its kind: the forms with two
register operands, with one, and with none. -/
theorem wf_eq_all_operandLegal (i : Instr) : i.wf = i.kindedOperands.all operandLegal := by
  cases i
  case mov a b | load a b | store a b | inc a b | dec a b | add a b | sub a b | and a b | or a b
      | xor a b | not a b | cmp a b =>
    exact congrArg (RegByte.ok a && ·) (Bool.and_true (RegByte.ok b)).symm
  case movn _ r | loada _ r | incn _ r | decn _ r | addn _ r | subn _ r | andn _ r | orn _ r
      | xorn _ r | notn _ r | storea r _ | cmpn r _ | push r | pop r | tst r | inp r | out r =>
    exact (Bool.and_true (RegByte.ok r)).symm
  case pushn | outn | jmp | je | jne | jl | jle | jg | jge | jeof | jneof | call | ret | nop
      | halt => rfl

/-- An instruction is ill formed exactly when some operand byte of kind R is 12 or more. -/
theorem wf_eq_false_iff {i : Instr} :
    i.wf = false ↔ ∃ o, (OperandKind.reg, o) ∈ i.kindedOperands ∧ 12 ≤ o.toNat := by
  simp [wf_eq_all_operandLegal, List.all_eq_false, operandLegal_eq_false]

end Sys2Proof

namespace Sys2Proof.Machine

/-! ## The status after an execute stage -/

@[simp] theorem readInto_status (d : Reg) (s : State) : (readInto d s).status = s.status := by
  cases h : s.input with
  | nil => simp [readInto_nil h]
  | cons b rest => simp [readInto_cons h]

@[simp] theorem writeOut_status (b : Byte) (s : State) : (writeOut b s).status = s.status := by
  cases h : outOk s with
  | true => simp [writeOut_ok h]
  | false => simp [writeOut_fail h]

/-- From a state that has not faulted, the one shape of an execute stage that is Faulted is that
of a bad register operand. -/
theorem Effect.faulted_iff {s t : State} {i : Instr} (h : Effect s i t)
    (hs : s.status ≠ .faulted) : t.status = .faulted ↔ i.wf = false := by
  cases h with
  | bad _ _ hw => simp [hw]
  | result _ _ _ hw | store _ _ _ hw | compare _ _ hw => simp [hw, hs]
  | jump _ _ hw => split <;> simp [hw, hs]
  | push | pushn | pop | call | ret | inp | out | outn | nop | halt => simp [Instr.wf, hs]

/-- Settles O30: of the shapes an execute stage can have, only that of an ill-formed instruction
is Faulted, and an instruction is ill formed exactly by an operand byte of kind R that is 12 or
more. -/
theorem onlyBadRegistersFault : Obligations.OnlyBadRegistersFault := by
  unfold Obligations.OnlyBadRegistersFault
  intro i s hs
  obtain ⟨t, ht, he⟩ := exec_effect i s
  exact ⟨t, ht, (he.faulted_iff hs).trans wf_eq_false_iff⟩

end Sys2Proof.Machine

/-! SUPPORT. What `dump()` answers (`70_reset_and_hazards.md` R279): each of its two lists, by
index. -/

namespace Sys2Proof.Machine

/-- `dump()` is the pure read of registers and memory when no run is in progress. -/
theorem hostDump_of_not_running {s : State} (h : s.status ≠ .running) :
    hostDump s = some (s.regs.toList, (List.range memSize).map fun a => s.mem.readAt a) :=
  if_neg h

/-- The register file as a list holds `x[r]` at index `r`. -/
theorem regs_toList_getElem? (s : State) (r : Reg) : s.regs.toList[r.val]? = some (s.reg r) := by
  rw [Vector.getElem?_toList]
  exact Vector.getElem?_eq_getElem r.isLt

/-- Reading memory at the addresses from 0 on gives `M[a]` at index `a`: every byte is an
address below 256. -/
theorem map_readAt_range_getElem? (s : State) (a : Byte) :
    ((List.range memSize).map fun n => s.mem.readAt n)[a.toNat]? = some (s.readMem a) := by
  have ha : a.toNat < memSize := a.isLt
  rw [List.getElem?_map, List.getElem?_range ha]
  rfl

/-- Settles O54: outside a run `dump()` answers the register file and the bytes read at the
addresses below 256, each list entry being the byte of its index. -/
theorem dumpShowsRegistersAndMemory : Obligations.DumpShowsRegistersAndMemory := by
  unfold Obligations.DumpShowsRegistersAndMemory
  intro s hs
  refine ⟨_, _, hostDump_of_not_running hs, ?_, ?_, regs_toList_getElem? s,
    map_readAt_range_getElem? s⟩
  · exact Vector.length_toList
  · exact (List.length_map _).trans List.length_range

end Sys2Proof.Machine

/-! SUPPORT. Decoding and encoding are inverse (`30_encoding.md` R91, R100): the bytes of an
instruction are its opcode and its operands, which decoding takes apart at the arity of its
row. -/

namespace Sys2Proof

/-- Decoding the bytes of an instruction gives it back, under every injective map. -/
theorem decodeWith_encodeWith {map : OpcodeMap} (inj : ∀ m n, map m = map n → m = n)
    (i : Instr) (rest : List Byte) : decodeWith map (encodeWith map i ++ rest) = .instr i rest := by
  have hl : ¬ (i.operands ++ rest).length < i.mnemonic.arity := by
    simp [operands_length]
  have ht : (i.operands ++ rest).take i.mnemonic.arity = i.operands :=
    List.take_left' (operands_length i)
  have hr : (i.operands ++ rest).drop i.mnemonic.arity = rest :=
    List.drop_left' (operands_length i)
  simp only [encodeWith, List.cons_append, decodeWith, decodeOpcode_map inj, if_neg hl, ht, hr,
    build_operands]

/-- Under the default map each opcode value decodes to its own row. -/
theorem decodeOpcode_opcodeMap (m : Mnemonic) :
    decodeOpcode opcodeMap (opcodeMap m) = some m := by
  cases m <;> decide

/-- No two rows of R96 have one opcode value. -/
theorem opcodeMap_injective (m n : Mnemonic) (h : opcodeMap m = opcodeMap n) : m = n := by
  have e := decodeOpcode_opcodeMap m
  rw [h, decodeOpcode_opcodeMap n] at e
  exact (Option.some.inj e).symm

/-- `decodeWith_encodeWith` at the default map. -/
theorem decode_encode (i : Instr) (rest : List Byte) : decode (encode i ++ rest) = .instr i rest :=
  decodeWith_encodeWith opcodeMap_injective i rest

/-- What a word that decodes is made of: its row's opcode, then the operands, then the rest. -/
theorem decodeWith_eq_instr {map : OpcodeMap} {op : Byte} {bytes rest : List Byte} {i : Instr}
    (h : decodeWith map (op :: bytes) = .instr i rest) :
    decodeOpcode map op = some i.mnemonic ∧ bytes = i.operands ++ rest := by
  simp only [decodeWith] at h
  split at h
  case h_1 => cases h
  case h_2 m hm =>
    split at h
    case isTrue => cases h
    case isFalse hl =>
      cases h
      have hlen : (bytes.take m.arity).length = m.arity :=
        List.length_take_of_le (Nat.le_of_not_lt hl)
      rw [mnemonic_build, operands_build _ _ hlen]
      exact ⟨hm, (List.take_append_drop _ _).symm⟩

/-- A word that decodes is the encoding of what it decodes to, under every map. -/
theorem encodeWith_of_decodeWith {map : OpcodeMap} {bytes rest : List Byte} {i : Instr}
    (h : decodeWith map bytes = .instr i rest) : bytes = encodeWith map i ++ rest := by
  cases bytes with
  | nil => cases h
  | cons op bytes =>
    obtain ⟨hop, rfl⟩ := decodeWith_eq_instr h
    rw [← map_of_decodeOpcode hop]
    rfl

/-- Settles O1: the operands are cut off at the arity of the row the opcode selects, and the
default map is injective because each of its values decodes to its own row. -/
theorem decodeOfEncode : Obligations.DecodeOfEncode := by
  unfold Obligations.DecodeOfEncode
  exact ⟨fun _ inj i rest => decodeWith_encodeWith inj i rest, opcodeMap_injective⟩

/-- Settles O2: the opcode byte is the value of the row found, and the operands are the bytes the
instruction was built from. -/
theorem encodeOfDecode : Obligations.EncodeOfDecode := by
  unfold Obligations.EncodeOfDecode
  exact fun _ _ _ _ h => encodeWith_of_decodeWith h

/-- Settles O3: each sample word is the encoding of its instruction, and 0x2C is no row's. -/
theorem decodesSampleWords : Obligations.DecodesSampleWords := by
  unfold Obligations.DecodesSampleWords
  exact ⟨decode_encode (.mov 4 5) [], decode_encode (.storea 4 0x80) [],
    decode_encode (.subn 1 4) [], decode_encode (.cmpn 4 5) [], decode_encode (.call 0x0A) [],
    decode_encode (.inp 4) [0x23], decode_encode .halt [], by decide⟩

end Sys2Proof


/-! SUPPORT. What IN, OUT and OUTN leave unchanged (`45_io.md` R220 to R224): everything but the
registers and the stream each of them moves. -/

namespace Sys2Proof.Machine

/-! ## IN -/

/-- Reading the input changes the registers and takes the next byte, if there is one. -/
theorem readInto_eq (d : Reg) (s : State) :
    readInto d s = { s with regs := (readInto d s).regs, input := s.input.tail } := by
  cases h : s.input with
  | nil => rw [readInto_nil h, List.tail_nil, ← h]; rfl
  | cons b rest => rw [readInto_cons h]; rfl

section
variable (d : Reg) (s : State)

@[simp] theorem readInto_mem : (readInto d s).mem = s.mem := by rw [readInto_eq]
@[simp] theorem readInto_input : (readInto d s).input = s.input.tail := by rw [readInto_eq]
@[simp] theorem readInto_output : (readInto d s).output = s.output := by rw [readInto_eq]
@[simp] theorem readInto_outAnswers : (readInto d s).outAnswers = s.outAnswers := by rw [readInto_eq]
@[simp] theorem readInto_faultInfo : (readInto d s).faultInfo = s.faultInfo := by rw [readInto_eq]
@[simp] theorem readInto_config : (readInto d s).config = s.config := by rw [readInto_eq]
@[simp] theorem readInto_readMem (a : Byte) : (readInto d s).readMem a = s.readMem a := by
  simp [State.readMem]

end

/-- IN writes no register but its destination and CC. -/
@[simp] theorem readInto_reg_ne {d r : Reg} (s : State) (hd : r ≠ d) (hc : r ≠ Reg.cc) :
    (readInto d s).reg r = s.reg r := by
  cases h : s.input with
  | nil => simp [readInto_nil h, hd, hc]
  | cons b rest => simp [readInto_cons h, hd]

/-- IN into another register than CC sets the flag exactly at end of stream. -/
theorem readInto_cc {d : Reg} (s : State) (hd : Reg.cc ≠ d) :
    (readInto d s).cc = if s.input = [] then s.cc ||| maskEOS else s.cc := by
  cases h : s.input with
  | nil => simp [readInto_nil h, hd]
  | cons b rest => simp [readInto_cons h, hd]

/-! ## OUT and OUTN -/

/-- Writing the output uses up one answer, appends the byte when the answer is success, and
changes nothing else but registers. -/
theorem writeOut_eq (b : Byte) (s : State) :
    writeOut b s = { s with
      regs := (writeOut b s).regs
      output := if outOk s then s.output ++ [b] else s.output
      outAnswers := s.outAnswers.tail } := by
  cases h : outOk s with
  | true => rw [writeOut_ok h]; rfl
  | false => rw [writeOut_fail h]; rfl

section
variable (b : Byte) (s : State)

@[simp] theorem writeOut_mem : (writeOut b s).mem = s.mem := by rw [writeOut_eq]
@[simp] theorem writeOut_input : (writeOut b s).input = s.input := by rw [writeOut_eq]
@[simp] theorem writeOut_output :
    (writeOut b s).output = if outOk s then s.output ++ [b] else s.output := by rw [writeOut_eq]
@[simp] theorem writeOut_faultInfo : (writeOut b s).faultInfo = s.faultInfo := by rw [writeOut_eq]
@[simp] theorem writeOut_config : (writeOut b s).config = s.config := by rw [writeOut_eq]
@[simp] theorem writeOut_readMem (a : Byte) : (writeOut b s).readMem a = s.readMem a := by
  simp [State.readMem]

/-- A write sets the flag exactly when it fails. -/
theorem writeOut_cc : (writeOut b s).cc = if outOk s then s.cc else s.cc ||| maskEOS := by
  cases h : outOk s with
  | true => simp [writeOut_ok h]
  | false => simp [writeOut_fail h]

/-- A write changes no register but CC. -/
@[simp] theorem writeOut_reg_ne {r : Reg} (hc : r ≠ Reg.cc) :
    (writeOut b s).reg r = s.reg r := by
  cases h : outOk s with
  | true => simp [writeOut_ok h]
  | false => simp [writeOut_fail h, hc]

end

end Sys2Proof.Machine

/-! SUPPORT. What an execute stage keeps, field by field, over the shapes of `Effect`. -/

namespace Sys2Proof

/-- A comparison names no destination and writes CC alone (`10_state.md` section 1). -/
theorem dst_and_writes_of_isComparison {i : Instr} (h : i.isComparison = true) :
    i.dst? = none ∧ i.implicitWrites = [Reg.cc] := by
  cases i
  case cmp | cmpn | tst => exact ⟨rfl, rfl⟩
  all_goals cases h

/-- A comparison transfers no control. -/
theorem transfers_of_isComparison {i : Instr} (h : i.isComparison = true) (c : Byte) :
    i.transfers c = false := by
  cases i
  case cmp | cmpn | tst => rfl
  all_goals cases h

/-- CC is written as a side effect by comparisons and I/O alone (`10_state.md` R30). -/
theorem isComparison_or_isIO_of_cc_mem {i : Instr} (h : Reg.cc ∈ i.implicitWrites) :
    i.isComparison = true ∨ i.isIO = true := by
  cases i
  case cmp | cmpn | tst => exact .inl rfl
  case inp | out | outn => exact .inr rfl
  all_goals simp [Instr.implicitWrites, Instr.mnemonic] at h

end Sys2Proof

namespace Sys2Proof.Machine

variable {s t : State} {i : Instr}

/-- A register that is neither the named destination nor listed for the instruction keeps its
value. -/
theorem Effect.reg_frame (h : Effect s i t) {r : Reg} (hd : i.dst? ≠ some r.toByte)
    (hi : r ∉ i.implicitWrites) : t.reg r = s.reg r := by
  have ne_dst {d : Reg} (e : i.dst? = some d.toByte) : r ≠ d := fun hr => hd (hr ▸ e)
  cases h with
  | bad | store | nop | halt => rfl
  | result _ d _ _ he => exact reg_setReg_ne s (ne_dst he) _
  | push | pushn =>
    have hr : r ≠ Reg.sp := fun hr => hi (by simp [hr, Instr.implicitWrites, Instr.mnemonic])
    simp [hr]
  | pop d =>
    have hr : r ≠ Reg.sp := fun hr => hi (by simp [hr, Instr.implicitWrites, Instr.mnemonic])
    simp [hr, ne_dst rfl]
  | compare _ _ _ hc =>
    have hr : r ≠ Reg.cc := by simpa [(dst_and_writes_of_isComparison hc).2] using hi
    exact reg_setReg_ne s hr _
  | jump _ _ _ hp =>
    have hr : r ≠ Reg.pc := by simpa [hp] using hi
    split
    · exact reg_setReg_ne s hr _
    · rfl
  | call | ret =>
    have hr : r ≠ Reg.pc ∧ r ≠ Reg.sp := by
      simpa [Instr.implicitWrites, Instr.mnemonic] using hi
    simp [hr.1, hr.2]
  | inp d =>
    have hr : r ≠ Reg.cc := by simpa [Instr.implicitWrites, Instr.mnemonic] using hi
    exact readInto_reg_ne s (ne_dst rfl) hr
  | out | outn =>
    have hr : r ≠ Reg.cc := by simpa [Instr.implicitWrites, Instr.mnemonic] using hi
    exact writeOut_reg_ne _ s hr

/-- No byte of memory changes but the one stored to. -/
theorem Effect.readMem_frame (h : Effect s i t) {a : Byte} (ha : storeTarget s i ≠ some a) :
    t.readMem a = s.readMem a := by
  have ne_target {b : Byte} (e : storeTarget s i = some b) : a ≠ b := fun hb => ha (hb ▸ e)
  cases h with
  | bad | result | pop | compare | ret | nop | halt => rfl
  | store _ _ _ _ _ e => exact readMem_writeMem_ne s _ (ne_target e)
  | push r => exact readMem_storeTop_ne _ _ (ne_target (by simp [storeTarget]))
  | pushn | call => exact readMem_storeTop_ne (growStack s) _ (ne_target rfl)
  | jump => split <;> rfl
  | inp d => exact readInto_readMem d s a
  | out | outn => exact writeOut_readMem _ s a

/-- An execute stage keeps memory canonical. -/
theorem Effect.wf_mem (h : Effect s i t) (hm : s.mem.wf = true) : t.mem.wf = true := by
  cases h with
  | bad | result | pop | compare | ret | nop | halt => exact hm
  | store a v => exact wf_writeMem hm _ _
  | push | pushn => exact wf_storeTop (s := growStack s) hm _
  | call => exact wf_storeTop (s := growStack s) hm s.pc
  | jump => split <;> exact hm
  | inp d => rwa [readInto_mem]
  | out | outn => rwa [writeOut_mem]

/-- The parameters are never written. -/
theorem Effect.config_eq (h : Effect s i t) : t.config = s.config := by
  cases h with
  | bad | result | store | push | pushn | pop | compare | call | ret | nop | halt => rfl
  | jump => split <;> rfl
  | inp d => exact readInto_config d s
  | out | outn => exact writeOut_config _ s

/-- Of a well-formed instruction's shapes only HALT's changes the status, and none writes the
diagnostic. -/
theorem Effect.control_of_wf (h : Effect s i t) (hw : i.wf = true) :
    t.faultInfo = s.faultInfo ∧ t.status = if i = .halt then .halted else s.status := by
  cases h with
  | bad _ _ hb => cases hb.symm.trans hw
  | result _ _ _ _ _ hp | store _ _ _ _ _ _ hp =>
    obtain ⟨-, -, -, hne, -⟩ := hp
    simp [hne]
  | compare _ _ _ hc =>
    have hne : i ≠ .halt := by rintro rfl; cases hc
    simp [hne]
  | jump _ _ _ hi =>
    have hne : i ≠ .halt := by rintro rfl; cases hi
    rw [if_neg hne]
    split <;> exact ⟨rfl, rfl⟩
  | push | pushn | pop | call | ret | inp | out | outn | nop | halt => simp

/-- An ill-formed instruction takes BadInstruction for its first bad register operand, and does
nothing else. -/
theorem Effect.eq_raise (h : Effect s i t) (hw : i.wf = false) :
    ∃ o, i.firstBadOperand = some o ∧ 12 ≤ o.toNat ∧
      t = raiseBadInstruction (.badRegister o) s := by
  cases h with
  | bad _ o _ hf ho => exact ⟨o, hf, ho, rfl⟩
  | result _ _ _ hg | store _ _ _ hg | compare _ _ hg | jump _ _ hg =>
    cases hg.symm.trans hw
  | push | pushn | pop | call | ret | inp | out | outn | nop | halt => simp [Instr.wf] at hw

/-- An instruction other than IN, OUT and OUTN leaves the streams and the answers. -/
theorem Effect.sameStreams (h : Effect s i t) (hio : i.isIO = false) : SameStreams s t := by
  cases h with
  | bad | result | store | push | pushn | pop | compare | call | ret | nop | halt =>
    exact ⟨rfl, rfl, rfl⟩
  | jump => split <;> exact ⟨rfl, rfl, rfl⟩
  | inp | out | outn => cases hio

/-- An execute stage takes bytes from the front of the input, and appends to the output. -/
theorem Effect.streams_grow (h : Effect s i t) : t.input <:+ s.input ∧ s.output <+: t.output := by
  cases h with
  | bad | result | store | push | pushn | pop | compare | call | ret | nop | halt =>
    exact ⟨List.suffix_rfl, List.prefix_rfl⟩
  | jump => split <;> exact ⟨List.suffix_rfl, List.prefix_rfl⟩
  | inp d => exact ⟨by simp [List.tail_suffix], by simp⟩
  | out | outn =>
    refine ⟨by simp, ?_⟩
    rw [writeOut_output]
    split <;> simp

end Sys2Proof.Machine


/-! SUPPORT. What each step keeps, and with it every run: the induction over steps once, then the
streams, the clock, the status and the invariant. -/

namespace Sys2Proof.Machine

/-! ## Steps -/

/-- The streams and the parameters as they can stand after `s`: a suffix of its input, an
extension of its output, the same parameters. -/
def StreamsAfter (s t : State) : Prop :=
  t.config = s.config ∧ t.input <:+ s.input ∧ s.output <+: t.output

section
variable {map : OpcodeMap} {s t : State}

/-- A running core's step counts one fetch, whatever becomes of the instruction. -/
theorem stepWith_clock (hr : s.status = .running) (h : stepWith map s = .next t) :
    t.clock = s.clock + 1 := by
  rcases stepWith_cases hr h with ⟨s', -, -, rfl, rfl⟩ | ⟨i, s', -, -, rfl, -, he⟩
  · rfl
  · exact he.clock

/-- A step moves the streams one way only. -/
theorem stepWith_streams (h : stepWith map s = .next t) : StreamsAfter s t := by
  by_cases hr : s.status = .running
  · rcases stepWith_cases hr h with ⟨s', -, -, rfl, rfl⟩ | ⟨i, s', -, -, rfl, -, he⟩
    · exact ⟨rfl, List.suffix_rfl, List.prefix_rfl⟩
    · exact ⟨he.config_eq, he.streams_grow⟩
  · cases (stepWith_of_not_running hr).symm.trans h
    exact ⟨rfl, List.suffix_rfl, List.prefix_rfl⟩

/-- A running core's step ends Faulted exactly on an unknown opcode or an ill-formed
instruction. -/
theorem stepWith_faulted_iff (hr : s.status = .running) (h : stepWith map s = .next t) :
    t.status = .faulted ↔
      (∃ op s', fetchInstr map s = (.error op, s')) ∨
      (∃ i s', fetchInstr map s = (.ok i, s') ∧ ¬ i.WellFormed) := by
  rcases stepWith_cases hr h with ⟨s', hf, -, -, rfl⟩ | ⟨i, s', hf, -, rfl, -, he⟩
  · exact iff_of_true rfl (.inl ⟨_, _, hf⟩)
  · rw [he.faulted_iff (by simp [hr]), hf]
    simp

/-- A running core's step that executes a well-formed instruction leaves the diagnostic, and ends
Halted on HALT, else Running. -/
theorem stepWith_control_of_wf {i : Instr} {s' : State} (hr : s.status = .running)
    (hf : fetchInstr map s = (.ok i, s')) (hw : i.WellFormed) (h : stepWith map s = .next t) :
    t.faultInfo = s.faultInfo ∧ t.status = if i = .halt then .halted else .running := by
  obtain ⟨-, -, rfl⟩ := fetchInstr_ok hf
  simpa [hr] using (effect_of_exec ((stepWith_of_fetch hr hf).symm.trans h)).control_of_wf hw

/-- Every step keeps the invariant. -/
theorem stepWith_inv (hi : Inv s) (h : stepWith map s = .next t) : Inv t := by
  by_cases hr : s.status = .running
  · obtain ⟨hm, hd⟩ := hi
    have hnone : s.faultInfo = none := by simpa [hr] using hd
    rcases stepWith_cases hr h with ⟨s', -, -, rfl, rfl⟩ | ⟨i, s', hf, -, rfl, -, he⟩
    · exact ⟨hm, by simp⟩
    · refine ⟨he.wf_mem hm, ?_⟩
      cases hw : i.wf with
      | false =>
        obtain ⟨o, -, -, rfl⟩ := he.eq_raise hw
        simp
      | true =>
        obtain ⟨hinfo, hst⟩ := stepWith_control_of_wf hr hf hw h
        rw [hinfo, hnone, hst]
        split <;> simp
  · cases (stepWith_of_not_running hr).symm.trans h
    exact hi

end

/-! ## Runs -/

/-- Every run answers a next state. -/
theorem run_total (k : Nat) (s : State) : ∃ t, run k s = .next t := by
  induction k generalizing s with
  | zero => exact ⟨s, rfl⟩
  | succ k ih =>
    obtain ⟨u, hu⟩ := stepWith_total opcodeMap s
    rw [run_succ hu]
    exact ih u

/-- Outside Running a run of any length answers the state itself. -/
theorem run_of_not_running {s : State} (h : s.status ≠ .running) (k : Nat) :
    run k s = .next s := by
  induction k with
  | zero => rfl
  | succ k ih => rw [run_succ (stepWith_of_not_running h), ih]

/-- A relation that every step is in, and that is reflexive and transitive, holds between the
ends of every run. -/
theorem run_induction {R : State → State → Prop} (hrefl : ∀ s, R s s)
    (htrans : ∀ {s u t}, R s u → R u t → R s t) (hstep : ∀ {s t}, step s = .next t → R s t)
    {k : Nat} {s t : State} (h : run k s = .next t) : R s t := by
  induction k generalizing s with
  | zero =>
    cases h
    exact hrefl _
  | succ k ih =>
    obtain ⟨u, hu⟩ := stepWith_total opcodeMap s
    rw [run_succ hu] at h
    exact htrans (hstep hu) (ih h)

/-- A run moves the streams one way only. -/
theorem run_streams {k : Nat} {s t : State} (h : run k s = .next t) : StreamsAfter s t :=
  run_induction (fun _ => ⟨rfl, List.suffix_rfl, List.prefix_rfl⟩)
    (fun ⟨hc, hi, ho⟩ ⟨hc', hi', ho'⟩ => ⟨hc'.trans hc, hi'.trans hi, ho.trans ho'⟩)
    stepWith_streams h

/-- A run that is still Running after `k` steps has counted `k` fetches. -/
theorem run_clock {k : Nat} {s t : State} (h : run k s = .next t) (ht : t.status = .running) :
    t.clock = s.clock + k := by
  induction k generalizing s with
  | zero =>
    cases h
    rfl
  | succ k ih =>
    obtain ⟨u, hu⟩ := stepWith_total opcodeMap s
    have hr : s.status = .running := by
      by_contra hr
      cases (run_of_not_running hr (k + 1)).symm.trans h
      exact hr ht
    rw [run_succ hu] at h
    rw [ih h, stepWith_clock hr hu]
    omega

/-- A longer run goes on from the end of a shorter one. -/
theorem run_add {k : Nat} {s t : State} (h : run k s = .next t) (j : Nat) :
    run (k + j) s = run j t := by
  induction k generalizing s with
  | zero =>
    cases h
    rw [Nat.zero_add]
  | succ k ih =>
    obtain ⟨u, hu⟩ := stepWith_total opcodeMap s
    rw [run_succ hu] at h
    rw [Nat.succ_add, run_succ hu, ih h]

/-- While every running state fetches a known and well-formed instruction, no state of the run
is Faulted. -/
theorem safeFor_of_wellFormed {k : Nat} {s : State} (hs : s.status ≠ .faulted)
    (hwf : ∀ j u, j < k → run j s = .next u → u.status = .running →
      ∃ i s', fetchInstr opcodeMap u = (.ok i, s') ∧ i.WellFormed) : SafeFor k s := by
  intro j
  induction j with
  | zero =>
    rintro - t h
    cases h
    exact hs
  | succ j ih =>
    intro hj t h
    obtain ⟨u, hu⟩ := run_total j s
    obtain ⟨v, hv⟩ := stepWith_total opcodeMap u
    have hsafe := ih (Nat.le_of_succ_le hj) u hu
    rw [run_add hu 1, run_succ hv] at h
    cases h
    by_cases hr : u.status = .running
    · obtain ⟨i, s', hf, hw⟩ := hwf j u hj hu hr
      rw [(stepWith_control_of_wf hr hf hw hv).2]
      split <;> decide
    · cases (stepWith_of_not_running hr).symm.trans hv
      exact hsafe

/-- Settles O55: an execute stage keeps memory canonical, and it writes the diagnostic in the one
shape in which it ends Faulted. -/
theorem stepKeepsInvariant : Obligations.StepKeepsInvariant := by
  unfold Obligations.StepKeepsInvariant
  exact fun _ _ _ hi h => stepWith_inv hi h

/-- Settles O48: what one step does to the streams is reflexive and transitive, so it holds along
a run. -/
theorem streamsAreHistories : Obligations.StreamsAreHistories := by
  unfold Obligations.StreamsAreHistories
  intro k s t h
  obtain ⟨hc, ⟨consumed, hi⟩, ⟨written, ho⟩⟩ := run_streams h
  exact ⟨hc, ⟨consumed, hi.symm⟩, ⟨written, ho.symm⟩⟩

/-- Settles O38: a run that is still Running has counted each of its steps, the next step counts
one more, and a state outside Running answers itself from then on. -/
theorem clockCountsFetches : Obligations.ClockCountsFetches := by
  unfold Obligations.ClockCountsFetches
  intro k s t u _ h ht hu
  have hk : t.clock = s.clock + k := run_clock h ht
  have hend : run (k + 1) s = .next u := (run_add h 1).trans (run_succ hu)
  refine ⟨hk, by rw [stepWith_clock ht hu, hk], fun hstop j => ?_⟩
  rw [run_add hend, run_of_not_running hstop]

/-- Settles O34: every fetch answers, and every execute stage answers a next state. -/
theorem everyStepAnswersNext : Obligations.EveryStepAnswersNext := by
  unfold Obligations.EveryStepAnswersNext
  exact stepWith_total

/-- Settles O35: outside Running the step answers the state itself, and so does every run. -/
theorem frozenOutsideRunning : Obligations.FrozenOutsideRunning := by
  unfold Obligations.FrozenOutsideRunning
  exact fun k _ h => run_of_not_running h k

/-- Settles O36: a bad fetch and an ill-formed instruction end Faulted, and of the well-formed
instructions HALT alone leaves Running. -/
theorem onlyHaltOrFaultEndsARun : Obligations.OnlyHaltOrFaultEndsARun := by
  unfold Obligations.OnlyHaltOrFaultEndsARun
  intro map s t hr h
  rcases stepWith_cases hr h with ⟨s', hf, -, -, rfl⟩ | ⟨i, s', hf, -, rfl, hx, he⟩
  · simp [hf]
  · rw [hf]
    cases hw : i.wf with
    | false =>
      obtain ⟨o, -, -, rfl⟩ := he.eq_raise hw
      have hne : i ≠ .halt := by rintro rfl; cases hw
      simp [hne]
    | true =>
      rw [(stepWith_control_of_wf hr hf hw h).2]
      by_cases hi : i = .halt
      · subst hi
        cases hx
        simp [Instr.mnemonic, Mnemonic.arity, Mnemonic.kinds]
      · simp [hi]

/-- Settles O37: a step from a running state that fetches a known and well-formed instruction
does not end Faulted, and a state outside Running stays as it is. -/
theorem wellFormedCodeRunsSafely : Obligations.WellFormedCodeRunsSafely := by
  unfold Obligations.WellFormedCodeRunsSafely
  exact fun _ _ hs hwf => safeFor_of_wellFormed hs hwf

/-! ## The exception -/

/-- What `loadProgram` rejects: a program too long for memory, when no run is in progress. -/
theorem loadProgram_eq_fault_iff {p : List Byte} {s : State} {f : Fault} :
    loadProgram p s = .fault f ↔ f = .programTooLarge ∧ s.status ≠ .running ∧ 256 < p.length := by
  cases f
  unfold loadProgram
  split
  case isTrue hr => simp [hr]
  case isFalse hr =>
    split
    case isTrue hl => simp [hr, hl]
    case isFalse hl => simpa [hr] using hl

/-- What a faulting step leaves: PC past the bytes fetched, the clock counted, and everything else
but status and diagnostic as it was. -/
theorem stepWith_frame_of_faulted {map : OpcodeMap} {s t : State} (hr : s.status = .running)
    (h : stepWith map s = .next t) (ht : t.status = .faulted) :
    ∃ f, t = raiseBadInstruction f (s.setReg Reg.pc (s.pc + BitVec.ofNat 8
      (1 + ((decodeOpcode map (s.readMem s.pc)).map Mnemonic.arity).getD 0))).tick := by
  rcases stepWith_cases hr h with ⟨s', -, hd, rfl, rfl⟩ | ⟨i, s', -, hd, rfl, -, he⟩
  · exact ⟨_, by rw [hd]; rfl⟩
  · obtain ⟨o, -, -, rfl⟩ := he.eq_raise ((he.faulted_iff (by simp [hr])).mp ht)
    exact ⟨_, by rw [hd]; rfl⟩

/-- Settles O31: an ill-formed instruction has the one shape `Effect.bad`. -/
theorem badOperandTakesException : Obligations.BadOperandTakesException := by
  unfold Obligations.BadOperandTakesException
  intro i s hw
  obtain ⟨t, ht, he⟩ := exec_effect i s
  obtain ⟨o, ho, h12, rfl⟩ := he.eq_raise (by simpa using hw)
  exact ⟨_, o, ht, ho, h12, rfl, rfl, fun _ _ => rfl, fun _ => rfl, ⟨rfl, rfl, rfl⟩, rfl, rfl⟩

/-- Settles O32: a running step ends Faulted for the two causes alone and is then frozen, every
step answers a next state, and `loadProgram` has one way to fail. -/
theorem badInstructionIsTheOnlyException : Obligations.BadInstructionIsTheOnlyException := by
  unfold Obligations.BadInstructionIsTheOnlyException
  refine ⟨fun map s t hr h => ⟨stepWith_faulted_iff hr h, fun ht => ?_⟩, fun map s f hf => ?_,
    fun _ _ _ => loadProgram_eq_fault_iff⟩
  · exact stepWith_of_not_running (by simp [ht])
  · obtain ⟨t, ht⟩ := stepWith_total map s
    cases ht.symm.trans hf

/-- Settles O33: a faulting step is a fetch followed by taking the exception. -/
theorem faultingStepFrame : Obligations.FaultingStepFrame := by
  unfold Obligations.FaultingStepFrame
  intro map s t hr h ht
  obtain ⟨f, rfl⟩ := stepWith_frame_of_faulted hr h ht
  refine ⟨by simp, by simp, fun r hpc => ?_, fun _ => rfl, ⟨rfl, rfl, rfl⟩, rfl⟩
  simpa using reg_setReg_ne s (by simpa using hpc) _

end Sys2Proof.Machine


/-! SUPPORT. What a step looks at (`40_execution_cycle.md` R129): not the streams, but for the
next input byte and the next answer of the oracle. States that agree but for the streams are
compared by dropping them, which every operation but the I/O instructions commutes with. -/

namespace Sys2Proof.Machine

/-- The state without its streams. -/
def dropStreams (s : State) : State := { s with input := [], output := [], outAnswers := [] }

/-- States agree without their streams exactly when they agree in every other field. -/
theorem dropStreams_eq_iff {s1 s2 : State} : dropStreams s1 = dropStreams s2 ↔
    s1.regs = s2.regs ∧ s1.mem = s2.mem ∧ s1.clock = s2.clock ∧ s1.status = s2.status ∧
      s1.faultInfo = s2.faultInfo ∧ s1.config = s2.config := by
  simp [dropStreams]

theorem withReg_dropStreams {o : RegByte} {s : State} {f f' : Reg → State}
    (h : ∀ r, f' r = dropStreams (f r)) :
    withReg o (dropStreams s) f' = mapNext dropStreams (withReg o s f) := by
  unfold withReg
  cases checkReg o with
  | none => rfl
  | some r => exact congrArg Host.Outcome.next (h r)

theorem withRegs_dropStreams {o1 o2 : RegByte} {s : State} {f f' : Reg → Reg → State}
    (h : ∀ r q, f' r q = dropStreams (f r q)) :
    withRegs o1 o2 (dropStreams s) f' = mapNext dropStreams (withRegs o1 o2 s f) := by
  unfold withRegs
  cases checkReg o1 with
  | none => rfl
  | some r => exact withReg_dropStreams (h r)

theorem jumpIf_dropStreams (p : Byte → Bool) (t : Addr) (s : State) :
    jumpIf p t (dropStreams s) = dropStreams (jumpIf p t s) :=
  (apply_ite dropStreams (p s.cc = true) (s.setReg Reg.pc t) s).symm

/-- The execute stage of an instruction other than IN, OUT and OUTN is the same without the
streams. -/
theorem exec_dropStreams {i : Instr} (hio : i.isIO = false) (s : State) :
    exec i (dropStreams s) = mapNext dropStreams (exec i s) := by
  cases i
  case inp | out | outn => cases hio
  case mov | load | store | inc | dec | add | sub | and | or | xor | not | cmp =>
    exact withRegs_dropStreams fun _ _ => rfl
  case movn | loada | storea | incn | decn | addn | subn | andn | orn | xorn | notn | cmpn | tst
      | push | pop =>
    exact withReg_dropStreams fun _ => rfl
  case je | jne | jl | jle | jg | jge | jeof | jneof =>
    exact congrArg Host.Outcome.next (jumpIf_dropStreams ..)
  case pushn | jmp | call | ret | nop | halt => rfl

section
variable {s1 s2 : State} (hd : dropStreams s1 = dropStreams s2)
include hd

theorem reg_eq_of_dropStreams_eq (r : Reg) : s1.reg r = s2.reg r :=
  (congrArg (State.reg · r) hd :)

theorem readMem_eq_of_dropStreams_eq (a : Byte) : s1.readMem a = s2.readMem a :=
  (congrArg (State.readMem · a) hd :)

/-- IN looks at the head of the input alone. -/
theorem dropStreams_readInto (d : Reg) (hin : s1.input.head? = s2.input.head?) :
    dropStreams (readInto d s1) = dropStreams (readInto d s2) := by
  cases h1 : s1.input with
  | nil =>
    have h2 : s2.input = [] := by simpa [h1, eq_comm] using hin
    rw [readInto_nil h1, readInto_nil h2]
    exact congrArg (fun s : State => setEos (s.setReg d s.config.eosByte)) hd
  | cons b rest =>
    obtain ⟨rest', h2⟩ : ∃ rest', s2.input = b :: rest' :=
      List.head?_eq_some_iff.mp (by simpa [h1] using hin.symm)
    rw [readInto_cons h1, readInto_cons h2]
    exact congrArg (fun s : State => s.setReg d b) hd

/-- OUT and OUTN look at the next answer alone. -/
theorem dropStreams_writeOut (b : Byte) (hok : outOk s1 = outOk s2) :
    dropStreams (writeOut b s1) = dropStreams (writeOut b s2) := by
  cases h : outOk s1 with
  | true =>
    rw [writeOut_ok h, writeOut_ok (hok ▸ h)]
    exact hd
  | false =>
    rw [writeOut_fail h, writeOut_fail (hok ▸ h)]
    exact congrArg setEos hd

/-- Two states that agree but for the streams, and on what an I/O instruction looks at of them,
have execute stages that agree but for the streams. -/
theorem mapNext_dropStreams_exec {i : Instr}
    (hin : ∀ d, i = .inp d → s1.input.head? = s2.input.head?)
    (hout : i.mnemonic = .out ∨ i.mnemonic = .outn → outOk s1 = outOk s2) :
    mapNext dropStreams (exec i s1) = mapNext dropStreams (exec i s2) := by
  cases hio : i.isIO with
  | false => rw [← exec_dropStreams hio, ← exec_dropStreams hio, hd]
  | true =>
    cases i
    case inp d =>
      have hin := hin d rfl
      show mapNext _ (withReg ..) = mapNext _ (withReg ..)
      rw [← withReg_dropStreams fun _ => rfl, ← withReg_dropStreams fun _ => rfl, hd]
      simp only [dropStreams_readInto hd _ hin]
    case out r =>
      have hout := hout (.inl rfl)
      show mapNext _ (withReg ..) = mapNext _ (withReg ..)
      rw [← withReg_dropStreams fun _ => rfl, ← withReg_dropStreams fun _ => rfl, hd]
      simp only [dropStreams_writeOut hd _ hout, reg_eq_of_dropStreams_eq hd]
    case outn n =>
      exact congrArg Host.Outcome.next (dropStreams_writeOut hd n (hout (.inr rfl)))
    all_goals cases hio

end

/-! ## What a fetch looks at -/

/-- The state after a fetch of `n` bytes: PC past them, one fetch counted. -/
def fetched (n : Nat) (s : State) : State := (s.setReg Reg.pc (s.pc + BitVec.ofNat 8 n)).tick

/-- What is fetched where the bytes at PC are an instruction's opcode and operands. -/
theorem fetchInstr_of_bytes {map : OpcodeMap} {s : State} {i : Instr}
    (hop : decodeOpcode map (s.readMem s.pc) = some i.mnemonic)
    (hops : i.operands = (List.range i.mnemonic.arity).map
      fun k => s.readMem (s.pc + 1 + BitVec.ofNat 8 k)) :
    fetchInstr map s = (.ok i, fetched (1 + i.mnemonic.arity) s) := by
  rcases fetchInstr_cases map s with ⟨hn, -⟩ | ⟨j, hj, hjops, hf⟩
  · cases hn.symm.trans hop
  · have hm : j.mnemonic = i.mnemonic := Option.some.inj (hj.symm.trans hop)
    have hij : j = i := by
      rw [← build_operands j, ← build_operands i, hjops, hops, hm]
    subst hij
    exact hf

/-- What is fetched where no row has the opcode at PC. -/
theorem fetchInstr_of_unknown {map : OpcodeMap} {s : State}
    (hop : decodeOpcode map (s.readMem s.pc) = none) :
    fetchInstr map s = (.error (s.readMem s.pc), fetched 1 s) := by
  rcases fetchInstr_cases map s with ⟨-, hf⟩ | ⟨j, hj, -⟩
  · exact hf
  · cases hj.symm.trans hop

/-- States that agree but for the streams fetch the same, and go on to agree. -/
theorem fetchInstr_eq_of_dropStreams_eq {map : OpcodeMap} {s1 s2 s1' : State}
    {r : Except Byte Instr} (hd : dropStreams s1 = dropStreams s2)
    (hf : fetchInstr map s1 = (r, s1')) : ∃ s2', fetchInstr map s2 = (r, s2') ∧
      dropStreams s1' = dropStreams s2' ∧ s1'.input = s1.input ∧ s2'.input = s2.input ∧
      s1'.outAnswers = s1.outAnswers ∧ s2'.outAnswers = s2.outAnswers := by
  have hpc : s1.pc = s2.pc := reg_eq_of_dropStreams_eq hd Reg.pc
  have hmem := readMem_eq_of_dropStreams_eq hd
  have hfetched (n : Nat) : dropStreams (fetched n s1) = dropStreams (fetched n s2) :=
    congrArg (fetched n) hd
  cases r with
  | error op =>
    obtain ⟨hop, rfl, rfl⟩ := fetchInstr_error hf
    rw [hpc, hmem] at hop
    refine ⟨_, ?_, hfetched 1, rfl, rfl, rfl, rfl⟩
    rw [hpc, hmem, fetchInstr_of_unknown hop]
  | ok i =>
    obtain ⟨hop, hops, rfl⟩ := fetchInstr_ok hf
    simp only [hpc, hmem] at hop hops
    exact ⟨_, fetchInstr_of_bytes hop hops, hfetched _, rfl, rfl, rfl, rfl⟩

/-- Settles O47: states that agree but for the streams fetch the same instruction, its execute
stage looks at no more of the streams than it may, and so the states after it agree again. -/
theorem stepReadsNothingElse : Obligations.StepReadsNothingElse := by
  unfold Obligations.StepReadsNothingElse
  intro map s1 s2 t1 t2 hregs hmem hclock hstatus hinfo hconfig hin hout h1 h2
  have hd : dropStreams s1 = dropStreams s2 :=
    dropStreams_eq_iff.mpr ⟨hregs, hmem, hclock, hstatus, hinfo, hconfig⟩
  suffices ht : dropStreams t1 = dropStreams t2 by
    obtain ⟨hregs, hmem, hclock, hstatus, hinfo, -⟩ := dropStreams_eq_iff.mp ht
    exact ⟨hregs, hmem, hclock, hstatus, hinfo⟩
  by_cases hr : s1.status = .running
  · rcases stepWith_cases hr h1 with ⟨s1', hf, -, -, rfl⟩ | ⟨i, s1', hf, -, -, hx1, -⟩
    · obtain ⟨s2', hf2, hd', -⟩ := fetchInstr_eq_of_dropStreams_eq hd hf
      cases (stepWith_of_unknown (hstatus ▸ hr) hf2).symm.trans h2
      exact congrArg (raiseBadInstruction _) hd'
    · obtain ⟨s2', hf2, hd', hi1, hi2, ho1, ho2⟩ := fetchInstr_eq_of_dropStreams_eq hd hf
      have hx2 := (stepWith_of_fetch (hstatus ▸ hr) hf2).symm.trans h2
      have hx : mapNext dropStreams (exec i s1') = mapNext dropStreams (exec i s2') :=
        mapNext_dropStreams_exec hd'
          (by rintro d rfl; rw [hi1, hi2]; exact hin d s1' hf)
          (fun hm => by rw [outOk, outOk, ho1, ho2]; exact hout i s1' hf hm)
      rw [hx1, hx2] at hx
      exact Host.Outcome.next.inj hx
  · cases (stepWith_of_not_running hr).symm.trans h1
    cases (stepWith_of_not_running (hstatus ▸ hr)).symm.trans h2
    exact hd

/-! ## The output already written -/

/-- The same state with bytes already written before its output. -/
def prependOutput (written : List Byte) (s : State) : State :=
  { s with output := written ++ s.output }

/-- No operation looks at the output, and appending to it leaves what is already there. -/
theorem transparent_prependOutput (written : List Byte) : Transparent (prependOutput written) where
  regs _ := rfl
  mem _ := rfl
  status _ := rfl
  input _ := rfl
  outAnswers _ := rfl
  config _ := rfl
  setReg _ _ _ := rfl
  writeMem _ _ _ := rfl
  tick _ := rfl
  setStatus _ _ := rfl
  raise _ _ := rfl
  setInput _ _ := rfl
  emit s b := by simp only [State.emit, prependOutput, List.append_assoc]
  nextAnswer _ := rfl

/-- A loaded state is one with an empty output, but for the output of earlier runs. -/
theorem loadedState_eq_prependOutput (p : List Byte) (s : State) :
    loadedState p s = prependOutput s.output (loadedState p { s with output := [] }) := by
  simp only [loadedState, prependOutput, List.append_nil]

/-- Settles O53: the two loaded states differ in the output already written alone, which is a
transparent update of one and the same state. -/
theorem runsAreIndependent : Obligations.RunsAreIndependent := by
  unfold Obligations.RunsAreIndependent
  intro k p s1 s2 t1 t2 hin hans hcfg h1 h2
  have hsame : loadedState p { s2 with output := [] } = loadedState p { s1 with output := [] } := by
    simp only [loadedState, hin, hans, hcfg]
  obtain ⟨t, ht⟩ := run_total k (loadedState p { s1 with output := [] })
  rw [loadedState_eq_prependOutput, (transparent_prependOutput _).run, ht] at h1
  rw [loadedState_eq_prependOutput, (transparent_prependOutput _).run, hsame, ht] at h2
  cases h1
  cases h2
  exact ⟨rfl, rfl, rfl, rfl, rfl, t.output, rfl, rfl⟩

end Sys2Proof.Machine


/-! SUPPORT. What one execute stage does, instruction by instruction: each form with legal
register operands is one update of the state (`40_execution_cycle.md` R125), and each update has
one frame lemma. -/

namespace Sys2Proof.Machine

/-! ## Frames, one per update -/

section
variable (s : State)

theorem writesOnly_setReg (d : Reg) (v : Byte) : WritesOnly d v s (s.setReg d v) :=
  ⟨reg_setReg_same s d v, fun _ hr => reg_setReg_ne s (by simpa using hr) v, fun _ => rfl,
    ⟨rfl, rfl, rfl⟩, rfl, rfl, rfl, rfl⟩

/-- `writesOnly_setReg`, with the value written read back from the state after. -/
theorem writesOnly_setReg_reg (d : Reg) (v : Byte) :
    WritesOnly d ((s.setReg d v).reg d) s (s.setReg d v) := by
  rw [reg_setReg_same]
  exact writesOnly_setReg s d v

theorem storesOnly_writeMem (hm : s.mem.wf = true) (a v : Byte) :
    StoresOnly a v s (s.writeMem a v) :=
  ⟨readMem_writeMem_same hm a v, fun _ hb => readMem_writeMem_ne s v hb, fun _ _ => rfl,
    ⟨rfl, rfl, rfl⟩, rfl, rfl, rfl, rfl⟩

/-- A jump whose predicate holds of CC exactly when `taken`. -/
theorem jumpsIf_jumpIf {p : Byte → Bool} {taken : Bool} (h : p s.cc = taken) (x : Addr) :
    JumpsIf taken x s (jumpIf p x s) := by
  unfold jumpIf
  rw [h]
  cases taken with
  | false => exact ⟨rfl, fun _ _ => rfl, fun _ => rfl, ⟨rfl, rfl, rfl⟩, rfl, rfl, rfl, rfl⟩
  | true =>
    exact ⟨reg_setReg_same s _ x, fun _ hr => reg_setReg_ne s (by simpa using hr) x,
      fun _ => rfl, ⟨rfl, rfl, rfl⟩, rfl, rfl, rfl, rfl⟩

/-- The register file after the first half of a push. -/
theorem growStack_reg (r : Reg) :
    (growStack s).reg r = if r = Reg.sp then s.sp - 1 else s.reg r := reg_setReg s Reg.sp r _

/-- `v` is pushed: SP is one less, `v` stands there, and nothing else has changed
(`10_state.md` R28, R33). -/
def Pushes (v : Byte) (s t : State) : Prop :=
  t.sp = s.sp - 1 ∧ t.readMem (s.sp - 1) = v ∧ SameRegsBut [Reg.sp] s t ∧
    SameMemoryBut (s.sp - 1) s t ∧ SameStreams s t ∧ SameControl s t

theorem pushes_storeTop (hm : s.mem.wf = true) (v : Byte) :
    Pushes v s (storeTop v (growStack s)) := by
  have hsp : (growStack s).sp = s.sp - 1 := growStack_sp s
  refine ⟨hsp, ?_, fun r hr => growStack_reg_ne s (by simpa using hr), fun b hb => ?_,
    ⟨rfl, rfl, rfl⟩, rfl, rfl, rfl, rfl⟩
  · rw [← hsp]
    exact readMem_storeTop_same (s := growStack s) hm v
  · exact readMem_storeTop_ne (growStack s) v (hsp ▸ hb)

end

/-! ## Data movement (`41_data_movement.md`) -/

section
variable (s : State) (a d : Reg) (n : Byte)

theorem exec_mov : exec (.mov a.toByte d.toByte) s = .next (s.setReg d (s.reg a)) :=
  withRegs_toByte ..
theorem exec_movn : exec (.movn n d.toByte) s = .next (s.setReg d n) := withReg_toByte ..
theorem exec_load :
    exec (.load a.toByte d.toByte) s = .next (s.setReg d (s.readMem (s.reg a))) :=
  withRegs_toByte ..
theorem exec_loada : exec (.loada n d.toByte) s = .next (s.setReg d (s.readMem n)) :=
  withReg_toByte ..
theorem exec_store :
    exec (.store a.toByte d.toByte) s = .next (s.writeMem (s.reg d) (s.reg a)) :=
  withRegs_toByte ..
theorem exec_storea : exec (.storea a.toByte n) s = .next (s.writeMem n (s.reg a)) :=
  withReg_toByte ..
theorem exec_push :
    exec (.push a.toByte) s = .next (storeTop ((growStack s).reg a) (growStack s)) :=
  withReg_toByte ..
theorem exec_pushn : exec (.pushn n) s = .next (storeTop n (growStack s)) := rfl
theorem exec_pop :
    exec (.pop d.toByte) s = .next (shrinkStack (s.setReg d (loadTop s))) := withReg_toByte ..

end

/-- Settles O6: both forms are one register write. -/
theorem movResults : Obligations.MovResults := by
  unfold Obligations.MovResults
  exact fun s a d n => ⟨⟨_, exec_mov s a d, writesOnly_setReg s d _⟩,
    _, exec_movn s d n, writesOnly_setReg s d n⟩

/-- Settles O7: both forms are one register write, of the byte read. -/
theorem loadResults : Obligations.LoadResults := by
  unfold Obligations.LoadResults
  exact fun s a d x => ⟨⟨_, exec_load s a d, writesOnly_setReg s d _⟩,
    _, exec_loada s d x, writesOnly_setReg s d _⟩

/-- Settles O8: both forms are one memory write. -/
theorem storeResults : Obligations.StoreResults := by
  unfold Obligations.StoreResults
  exact fun s a d x hm => ⟨⟨_, exec_store s a d, storesOnly_writeMem s hm _ _⟩,
    _, exec_storea s a x, storesOnly_writeMem s hm x _⟩

/-- Settles O9: both forms push; the register is read after the decrement. -/
theorem pushResults : Obligations.PushResults := by
  unfold Obligations.PushResults
  intro s r n hm
  refine ⟨⟨_, exec_push s r, ?_⟩, _, exec_pushn s n, pushes_storeTop s hm n⟩
  rw [← growStack_reg]
  exact pushes_storeTop s hm _

/-- Settles O10: the increment of SP comes after the load, on the loaded value when SP is the
destination. -/
theorem popResult : Obligations.PopResult := by
  unfold Obligations.PopResult
  intro s d
  refine ⟨_, exec_pop s d, fun hd => ?_, ?_, fun r hr => ?_, fun _ => rfl, ⟨rfl, rfl, rfl⟩,
    rfl, rfl, rfl, rfl⟩
  · simp [hd, Ne.symm hd, loadTop]
  · rintro rfl
    simp [loadTop]
  · obtain ⟨hd, hsp⟩ : r ≠ d ∧ r ≠ Reg.sp := by simpa using hr
    simp [hd, hsp]

/-- A pop after a push of `v` gives `v` back and restores SP. -/
theorem pop_of_pushes {s t : State} {v : Byte} (h : Pushes v s t) {d : Reg} (hd : d ≠ Reg.sp) :
    ∃ u, exec (.pop d.toByte) t = .next u ∧ u.reg d = v ∧ u.sp = s.sp ∧ SameRegsBut [d] s u := by
  obtain ⟨hsp, htop, hregs, -⟩ := h
  have hback : (shrinkStack (t.setReg d (loadTop t))).sp = s.sp := by
    simp [hsp, Ne.symm hd]
  refine ⟨_, exec_pop t d, ?_, hback, fun r hr => ?_⟩
  · rw [shrinkStack_reg_ne _ hd, reg_setReg_same, loadTop, hsp, htop]
  · by_cases hrsp : r = Reg.sp
    · rw [hrsp]
      exact hback
    · simpa [hrsp, show r ≠ d by simpa using hr] using hregs r (by simpa using hrsp)

/-- Settles O11: a pop takes what was pushed, for a register other than SP its value before. -/
theorem pushThenPop : Obligations.PushThenPop := by
  unfold Obligations.PushThenPop
  intro s n r d hm hd
  refine ⟨?_, fun hr => ?_⟩
  · obtain ⟨u, hu, hval, hsp, hregs⟩ := pop_of_pushes (pushes_storeTop s hm n) hd
    exact ⟨_, u, exec_pushn s n, hu, hval, hsp, hregs⟩
  · obtain ⟨u, hu, hval, hsp, hregs⟩ :=
      pop_of_pushes (pushes_storeTop s hm ((growStack s).reg r)) hd
    exact ⟨_, u, exec_push s r, hu, hval.trans (growStack_reg_ne s hr), hsp, hregs⟩

/-- Settles O44: the same address reads the byte written, another one what it held. -/
theorem readAfterWrite : Obligations.ReadAfterWrite := by
  unfold Obligations.ReadAfterWrite
  intro s a b v hm
  split
  case isTrue hb =>
    rw [hb]
    exact readMem_writeMem_same hm a v
  case isFalse hb => exact readMem_writeMem_ne s v hb

/-- A fetch from the address stored to, in any state with that memory, gives the byte stored. -/
theorem fetchByte_of_stored {s u : State} (hm : s.mem.wf = true) {x v : Byte}
    (hu : SameMemory (s.writeMem x v) u) (hpc : u.pc = x) : (fetchByte u).1 = v := by
  rw [fetchByte_fst, hpc, hu x]
  exact readMem_writeMem_same hm x v

/-- Settles O45: a fetch reads memory, where the byte stored stands. -/
theorem storeSeenByFetch : Obligations.StoreSeenByFetch := by
  unfold Obligations.StoreSeenByFetch
  exact fun s r d x hm => ⟨⟨_, exec_storea s r x, fun _ => fetchByte_of_stored hm⟩,
    _, exec_store s r d, fun _ => fetchByte_of_stored hm⟩

/-! ## Arithmetic and bitwise (`42_arithmetic_bitwise.md`) -/

section
variable (s : State) (a d : Reg) (n : Byte)

theorem exec_add : exec (.add a.toByte d.toByte) s = .next (s.setReg d (s.reg d + s.reg a)) :=
  withRegs_toByte ..
theorem exec_addn : exec (.addn n d.toByte) s = .next (s.setReg d (s.reg d + n)) :=
  withReg_toByte ..
theorem exec_sub : exec (.sub a.toByte d.toByte) s = .next (s.setReg d (s.reg d - s.reg a)) :=
  withRegs_toByte ..
theorem exec_subn : exec (.subn n d.toByte) s = .next (s.setReg d (s.reg d - n)) :=
  withReg_toByte ..
theorem exec_inc : exec (.inc a.toByte d.toByte) s = .next (s.setReg d (s.reg a + 1)) :=
  withRegs_toByte ..
theorem exec_incn : exec (.incn n d.toByte) s = .next (s.setReg d (n + 1)) := withReg_toByte ..
theorem exec_dec : exec (.dec a.toByte d.toByte) s = .next (s.setReg d (s.reg a - 1)) :=
  withRegs_toByte ..
theorem exec_decn : exec (.decn n d.toByte) s = .next (s.setReg d (n - 1)) := withReg_toByte ..
theorem exec_and : exec (.and a.toByte d.toByte) s = .next (s.setReg d (s.reg d &&& s.reg a)) :=
  withRegs_toByte ..
theorem exec_andn : exec (.andn n d.toByte) s = .next (s.setReg d (s.reg d &&& n)) :=
  withReg_toByte ..
theorem exec_or : exec (.or a.toByte d.toByte) s = .next (s.setReg d (s.reg d ||| s.reg a)) :=
  withRegs_toByte ..
theorem exec_orn : exec (.orn n d.toByte) s = .next (s.setReg d (s.reg d ||| n)) :=
  withReg_toByte ..
theorem exec_xor : exec (.xor a.toByte d.toByte) s = .next (s.setReg d (s.reg d ^^^ s.reg a)) :=
  withRegs_toByte ..
theorem exec_xorn : exec (.xorn n d.toByte) s = .next (s.setReg d (s.reg d ^^^ n)) :=
  withReg_toByte ..
theorem exec_not : exec (.not a.toByte d.toByte) s = .next (s.setReg d (s.reg a ^^^ 0xFF)) :=
  withRegs_toByte ..
theorem exec_notn : exec (.notn n d.toByte) s = .next (s.setReg d (n ^^^ 0xFF)) :=
  withReg_toByte ..

end

/-- Subtraction of bytes as natural numbers, the minuend raised by 256. -/
theorem toNat_sub_byte (u v : Byte) : (u - v).toNat = (u.toNat + 256 - v.toNat) % 256 := by
  bv_omega

/-- The complement of a byte as a natural number. -/
theorem toNat_xor_ones (v : Byte) : (v ^^^ 0xFF).toNat = 255 - v.toNat := by
  revert v
  decide

section
variable {s : State} {d : Reg} {v : Byte}

/-- The value written, as a number: what a clause on the number of the result needs. -/
theorem toNat_reg_setReg {n : Nat} (h : v.toNat = n) : ((s.setReg d v).reg d).toNat = n := by
  rw [reg_setReg_same, h]

/-- The value written, bit by bit. -/
theorem getLsbD_reg_setReg {f : Nat → Bool} (h : ∀ k, v.getLsbD k = f k) (k : Nat) :
    ((s.setReg d v).reg d).getLsbD k = f k := by
  rw [reg_setReg_same, h]

end

/-- Settles O12: the register form and the immediate form write the sum. -/
theorem addResults : Obligations.AddResults := by
  unfold Obligations.AddResults
  exact fun s a d n =>
    ⟨⟨_, exec_add s a d, toNat_reg_setReg (BitVec.toNat_add ..), writesOnly_setReg_reg s d _⟩,
      _, exec_addn s d n, toNat_reg_setReg (BitVec.toNat_add ..), writesOnly_setReg_reg s d _⟩

/-- Settles O13: both forms write the difference, the destination being the minuend. -/
theorem subResults : Obligations.SubResults := by
  unfold Obligations.SubResults
  exact fun s a d n =>
    ⟨⟨_, exec_sub s a d, toNat_reg_setReg (toNat_sub_byte ..), writesOnly_setReg_reg s d _⟩,
      _, exec_subn s d n, toNat_reg_setReg (toNat_sub_byte ..), writesOnly_setReg_reg s d _⟩

/-- Settles O14: the four forms write the source plus or minus one. -/
theorem incDecResults : Obligations.IncDecResults := by
  unfold Obligations.IncDecResults
  exact fun s a d n =>
    ⟨⟨_, exec_inc s a d, toNat_reg_setReg (BitVec.toNat_add ..), writesOnly_setReg_reg s d _⟩,
      ⟨_, exec_incn s d n, toNat_reg_setReg (BitVec.toNat_add ..), writesOnly_setReg_reg s d _⟩,
      ⟨_, exec_dec s a d, toNat_reg_setReg (toNat_sub_byte ..), writesOnly_setReg_reg s d _⟩,
      _, exec_decn s d n, toNat_reg_setReg (toNat_sub_byte ..), writesOnly_setReg_reg s d _⟩

/-- Settles O15: the six forms write the result of the operation, whose bits are those of the
operands combined. -/
theorem bitwiseResults : Obligations.BitwiseResults := by
  unfold Obligations.BitwiseResults
  exact fun s a d n =>
    ⟨⟨_, exec_and s a d, writesOnly_setReg_reg s d _,
        getLsbD_reg_setReg fun _ => BitVec.getLsbD_and⟩,
      ⟨_, exec_andn s d n, writesOnly_setReg_reg s d _,
        getLsbD_reg_setReg fun _ => BitVec.getLsbD_and⟩,
      ⟨_, exec_or s a d, writesOnly_setReg_reg s d _,
        getLsbD_reg_setReg fun _ => BitVec.getLsbD_or⟩,
      ⟨_, exec_orn s d n, writesOnly_setReg_reg s d _,
        getLsbD_reg_setReg fun _ => BitVec.getLsbD_or⟩,
      ⟨_, exec_xor s a d, writesOnly_setReg_reg s d _,
        getLsbD_reg_setReg fun _ => BitVec.getLsbD_xor⟩,
      _, exec_xorn s d n, writesOnly_setReg_reg s d _,
        getLsbD_reg_setReg fun _ => BitVec.getLsbD_xor⟩

/-- Settles O16: both forms write the complement of the source. -/
theorem notResults : Obligations.NotResults := by
  unfold Obligations.NotResults
  exact fun s a d n =>
    ⟨⟨_, exec_not s a d, toNat_reg_setReg (toNat_xor_ones _), writesOnly_setReg_reg s d _⟩,
      _, exec_notn s d n, toNat_reg_setReg (toNat_xor_ones _), writesOnly_setReg_reg s d _⟩

end Sys2Proof.Machine


/-! SUPPORT. What one execute stage does: comparisons and jumps (`43_comparison.md`,
`44_control_transfer.md`), CALL and RET, input and output (`45_io.md`), NOP and HALT. -/

namespace Sys2Proof.Machine

/-! ## Comparison -/

section
variable (s : State) (a b : Reg) (n : Byte)

theorem exec_cmp : exec (.cmp a.toByte b.toByte) s =
    .next (s.setReg Reg.cc (compareFlags (s.reg a) (s.reg b))) := withRegs_toByte ..
theorem exec_cmpn : exec (.cmpn a.toByte n) s =
    .next (s.setReg Reg.cc (compareFlags (s.reg a) n)) := withReg_toByte ..
theorem exec_tst : exec (.tst a.toByte) s = .next (s.setReg Reg.cc (testFlags (s.reg a))) :=
  withReg_toByte ..

end

/-- Which of its three values a comparison leaves (`43_comparison.md` R190). -/
theorem compareFlags_iff (u v : Byte) :
    (compareFlags u v = 0x01 ↔ u = v) ∧ (compareFlags u v = 0x02 ↔ u.toNat < v.toNat) ∧
    (compareFlags u v = 0x00 ↔ v.toNat < u.toNat) := by
  rcases compareFlags_cases u v with ⟨rfl, e⟩ | ⟨h, e⟩ | ⟨h, e⟩
  · simp [e]
  · have hne : u ≠ v := by rintro rfl; exact Nat.lt_irrefl _ h
    simp [e, h, hne, h.le]
  · have hne : u ≠ v := by rintro rfl; exact Nat.lt_irrefl _ h
    simp [e, h, hne, h.le]

/-- Which of its two values a test leaves (`43_comparison.md` R193). -/
theorem testFlags_iff (u : Byte) :
    (testFlags u = 0x01 ↔ u = 0x00) ∧ (testFlags u = 0x00 ↔ u ≠ 0x00) := by
  rcases testFlags_cases u with ⟨h, e⟩ | ⟨h, e⟩
  · exact ⟨iff_of_true e h, iff_of_false (by rw [e]; decide) (not_not.mpr h)⟩
  · exact ⟨iff_of_false (by rw [e]; decide) h, iff_of_true e h⟩

/-- The flags a comparison leaves, as bits (`43_comparison.md` R194). -/
theorem compareFlags_bits (u v : Byte) :
    (compareFlags u v).getLsbD 0 = decide (u.toNat = v.toNat) ∧
    (compareFlags u v).getLsbD 1 = decide (u.toNat < v.toNat) ∧
    (compareFlags u v).getLsbD 2 = false := by
  rcases compareFlags_cases u v with ⟨rfl, e⟩ | ⟨h, e⟩ | ⟨h, e⟩
  · simp [e]
  · simp [e, h, h.ne]
  · simp [e, h.ne', h.le]

/-- Settles O17: each form writes CC, with the flags of its two operands or of its one. -/
theorem comparisonResults : Obligations.ComparisonResults := by
  unfold Obligations.ComparisonResults
  exact fun s a b n =>
    ⟨⟨_, _, exec_cmp s a b, writesOnly_setReg s Reg.cc _, compareFlags_iff _ _⟩,
      ⟨_, _, exec_cmpn s a n, writesOnly_setReg s Reg.cc _, compareFlags_iff _ _⟩,
      _, _, exec_tst s a, writesOnly_setReg s Reg.cc _, testFlags_iff _⟩

/-! ## Jumps -/

/-- JMP is a jump always taken. -/
theorem jumpsIf_setReg (s : State) (x : Addr) : JumpsIf true x s (s.setReg Reg.pc x) :=
  jumpsIf_jumpIf s (p := fun _ => true) rfl x

/-- Settles O18: JMP writes PC, and each conditional jump does under its predicate, which is the
statement about bits of CC that the table of R202 gives. -/
theorem jumpResults : Obligations.JumpResults := by
  unfold Obligations.JumpResults
  intro s x
  exact ⟨⟨_, rfl, jumpsIf_setReg s x⟩,
    ⟨_, rfl, jumpsIf_jumpIf s (isEqual_eq _) x⟩,
    ⟨_, rfl, jumpsIf_jumpIf s (isNotEqual_eq _) x⟩,
    ⟨_, rfl, jumpsIf_jumpIf s (isLess_eq _) x⟩,
    ⟨_, rfl, jumpsIf_jumpIf s (isLessOrEqual_eq _) x⟩,
    ⟨_, rfl, jumpsIf_jumpIf s (isGreater_eq _) x⟩,
    ⟨_, rfl, jumpsIf_jumpIf s (isGreaterOrEqual_eq _) x⟩,
    ⟨_, rfl, jumpsIf_jumpIf s (isEos_eq _) x⟩,
    ⟨_, rfl, jumpsIf_jumpIf s (isNotEos_eq _) x⟩⟩

/-- Settles O19: CMP leaves E for equal, L for less and no end-of-stream flag, and the jumps read
these bits. -/
theorem compareThenJump : Obligations.CompareThenJump := by
  unfold Obligations.CompareThenJump
  intro s a b x
  obtain ⟨he, hl, heos⟩ := compareFlags_bits (s.reg a) (s.reg b)
  have hcc : (s.setReg Reg.cc (compareFlags (s.reg a) (s.reg b))).cc =
    compareFlags (s.reg a) (s.reg b) := reg_setReg_same ..
  refine ⟨_, exec_cmp s a b, ⟨_, rfl, jumpsIf_jumpIf _ ?_ x⟩, ⟨_, rfl, jumpsIf_jumpIf _ ?_ x⟩,
    ⟨_, rfl, jumpsIf_jumpIf _ ?_ x⟩, ⟨_, rfl, jumpsIf_jumpIf _ ?_ x⟩,
    ⟨_, rfl, jumpsIf_jumpIf _ ?_ x⟩, ⟨_, rfl, jumpsIf_jumpIf _ ?_ x⟩,
    ⟨_, rfl, jumpsIf_jumpIf _ ?_ x⟩, _, rfl, jumpsIf_jumpIf _ ?_ x⟩
  · rw [hcc, isEqual_eq, he]
  · rw [hcc, isNotEqual_eq, he, decide_not]
  · rw [hcc, isLess_eq, hl]
  · rw [hcc, isLessOrEqual_eq, hl, he, ← Bool.decide_or]
    exact decide_eq_decide.mpr Nat.le_iff_lt_or_eq.symm
  · rw [hcc, isGreater_eq, hl, he, ← decide_not, ← decide_not, ← Bool.decide_and]
    exact decide_eq_decide.mpr (by omega)
  · rw [hcc, isGreaterOrEqual_eq, hl, ← decide_not]
    exact decide_eq_decide.mpr Nat.not_lt
  · rw [hcc, isEos_eq, heos]
  · rw [hcc, isNotEos_eq, heos]
    rfl

/-! ## CALL and RET -/

/-- CALL pushes the address of the next instruction and jumps (R212). -/
theorem exec_call_results {s : State} (hm : s.mem.wf = true) (x : Addr) :
    ∃ t, exec (.call x) s = .next t ∧ t.pc = x ∧ t.sp = s.sp - 1 ∧
      t.readMem (s.sp - 1) = s.pc ∧ SameRegsBut [Reg.pc, Reg.sp] s t ∧
      SameMemoryBut (s.sp - 1) s t ∧ SameStreams s t ∧ SameControl s t := by
  obtain ⟨hsp, htop, hregs, hmem, hstreams, hcontrol⟩ := pushes_storeTop s hm s.pc
  refine ⟨_, rfl, reg_setReg_same .., ?_, htop, fun r hr => ?_, hmem, hstreams, hcontrol⟩
  · exact (reg_setReg_ne _ sp_ne_pc x).trans hsp
  · obtain ⟨hpc, hrsp⟩ : r ≠ Reg.pc ∧ r ≠ Reg.sp := by simpa using hr
    exact (reg_setReg_ne _ hpc x).trans (hregs r (by simpa using hrsp))

/-- RET pops the byte at SP into PC (R213). -/
theorem exec_ret_results (s : State) :
    ∃ t, exec .ret s = .next t ∧ t.pc = s.readMem s.sp ∧ t.sp = s.sp + 1 ∧
      SameRegsBut [Reg.pc, Reg.sp] s t ∧ SameMemory s t ∧ SameStreams s t ∧ SameControl s t := by
  refine ⟨_, rfl, reg_setReg_same .., ?_, fun r hr => ?_, fun _ => rfl, ⟨rfl, rfl, rfl⟩,
    rfl, rfl, rfl, rfl⟩
  · exact (reg_setReg_ne _ sp_ne_pc _).trans (shrinkStack_sp s)
  · obtain ⟨hpc, hsp⟩ : r ≠ Reg.pc ∧ r ≠ Reg.sp := by simpa using hr
    exact (reg_setReg_ne _ hpc _).trans (shrinkStack_reg_ne s hsp)

/-- Settles O20: a push of PC and a jump; a pop into PC. -/
theorem callRetResults : Obligations.CallRetResults := by
  unfold Obligations.CallRetResults
  exact fun s x hm => ⟨exec_call_results hm x, exec_ret_results s⟩

/-- Settles O21: RET pops what CALL pushed, and its increment of SP undoes CALL's decrement. -/
theorem callThenRet : Obligations.CallThenRet := by
  unfold Obligations.CallThenRet
  intro s x hm
  obtain ⟨t, ht, hpc, hsp, htop, -⟩ := exec_call_results hm x
  refine ⟨t, ht, hpc, fun u husp hutop => ?_⟩
  obtain ⟨v, hv, hvpc, hvsp, hregs, -⟩ := exec_ret_results u
  refine ⟨v, hv, ?_, ?_, hregs⟩
  · rw [hvpc, hutop, hsp, htop]
  · rw [hvsp, husp, hsp, BitVec.sub_add_cancel]

/-! ## Input and output -/

section
variable (s : State) (d r : Reg) (n : Byte)

theorem exec_inp : exec (.inp d.toByte) s = .next (readInto d s) := withReg_toByte ..
theorem exec_out : exec (.out r.toByte) s = .next (writeOut (s.reg r) s) := withReg_toByte ..
theorem exec_outn : exec (.outn n) s = .next (writeOut n s) := rfl

end

/-- Settles O24: with a byte there IN is one register write; at end of stream it is the write of
the sentinel and then of the flag. -/
theorem inResults : Obligations.InResults := by
  unfold Obligations.InResults
  intro s d
  refine ⟨fun b rest h => ⟨_, exec_inp s d, ?_⟩, fun h => ⟨_, exec_inp s d, ?_⟩⟩
  · obtain ⟨hval, hregs, hmem, -, hcontrol⟩ := writesOnly_setReg (s.setInput rest) d b
    rw [readInto_cons h]
    exact ⟨hval, rfl, rfl, rfl, hregs, hmem, hcontrol⟩
  · rw [readInto_nil h]
    refine ⟨fun hd => ⟨?_, ?_⟩, ?_, fun r hr => ?_, fun _ => rfl, ⟨rfl, rfl, rfl⟩,
      rfl, rfl, rfl, rfl⟩
    · rw [setEos_reg_ne _ hd, reg_setReg_same]
    · rw [setEos_cc, State.cc, reg_setReg_ne s hd.symm]
      rfl
    · rintro rfl
      rw [setEos_cc, State.cc, reg_setReg_same]
      rfl
    · obtain ⟨hd, hcc⟩ : r ≠ d ∧ r ≠ Reg.cc := by simpa using hr
      rw [setEos_reg_ne _ hcc, reg_setReg_ne s hd]

/-- What a write that succeeds leaves, and what one that fails. -/
theorem writeOut_results (b : Byte) (s : State) :
    (outOk s = true → (writeOut b s).output = s.output ++ [b] ∧
      (writeOut b s).input = s.input ∧ (writeOut b s).outAnswers = s.outAnswers.tail ∧
      SameRegsBut [] s (writeOut b s) ∧ SameMemory s (writeOut b s) ∧
      SameControl s (writeOut b s)) ∧
    (outOk s = false → (writeOut b s).cc = s.cc ||| maskEOS ∧
      (writeOut b s).output = s.output ∧ (writeOut b s).input = s.input ∧
      (writeOut b s).outAnswers = s.outAnswers.tail ∧ SameRegsBut [Reg.cc] s (writeOut b s) ∧
      SameMemory s (writeOut b s) ∧ SameControl s (writeOut b s)) := by
  refine ⟨fun h => ?_, fun h => ?_⟩
  · rw [writeOut_ok h]
    exact ⟨rfl, rfl, rfl, fun _ _ => rfl, fun _ => rfl, rfl, rfl, rfl, rfl⟩
  · rw [writeOut_fail h]
    exact ⟨setEos_cc _, rfl, rfl, rfl, fun r hr => setEos_reg_ne _ (by simpa using hr),
      fun _ => rfl, rfl, rfl, rfl, rfl⟩

/-- Settles O25: OUT and OUTN write one byte out, and the oracle decides which of the two ways it
goes. -/
theorem outResults : Obligations.OutResults := by
  unfold Obligations.OutResults
  intro s r n p hp
  have hx : exec p.1 s = .next (writeOut p.2 s) := by
    rcases List.mem_pair.mp hp with rfl | rfl
    · exact exec_out s r
    · exact exec_outn s n
  obtain ⟨hok, hfail⟩ := writeOut_results p.2 s
  exact ⟨fun h => ⟨_, hx, hok h⟩, fun h => ⟨_, hx, hfail h⟩⟩

/-- Settles O26: at end of stream the flag is the last thing written, and a byte read into another
register leaves CC as it was. -/
theorem endOfInputThenJeof : Obligations.EndOfInputThenJeof := by
  unfold Obligations.EndOfInputThenJeof
  intro s d x
  refine ⟨_, exec_inp s d, fun h => ⟨_, rfl, jumpsIf_jumpIf _ ?_ x⟩,
    fun h hd => ⟨_, rfl, jumpsIf_jumpIf _ ?_ x⟩⟩
  · rw [readInto_nil h, isEos_eq, setEos_cc, getLsbD_two_or_maskEOS]
  · rw [isEos_eq, readInto_cc s hd.symm, if_neg h]

/-! ## NOP and HALT -/

/-- Settles O28: NOP answers its state, and HALT sets the status of it. -/
theorem nopHaltResults : Obligations.NopHaltResults := by
  unfold Obligations.NopHaltResults
  exact fun s =>
    ⟨⟨s, rfl, fun _ _ => rfl, fun _ => rfl, ⟨rfl, rfl, rfl⟩, rfl, rfl, rfl, rfl⟩,
      s.setStatus .halted, rfl, rfl, fun _ _ => rfl, fun _ => rfl, ⟨rfl, rfl, rfl⟩, rfl, rfl, rfl⟩

end Sys2Proof.Machine


/-! SUPPORT. Rules over all instructions: what writes registers, CC, memory and the streams
(`10_state.md` section 1 and R30, `20_memory.md` R61, `45_io.md` R220, R224). -/

namespace Sys2Proof.Machine

/-- A byte that passes the register check names a register. -/
theorem eq_toByte_of_ok {o : RegByte} (h : RegByte.ok o = true) : ∃ r : Reg, o = r.toByte := by
  obtain ⟨r, hr⟩ := ok_iff_checkReg.mp h
  exact ⟨r, checkReg_eq_some.mp hr⟩

/-- The forms of a well-formed I/O instruction. -/
theorem isIO_cases {i : Instr} (hio : i.isIO = true) (hw : i.wf = true) :
    (∃ d : Reg, i = .inp d.toByte) ∨ (∃ r : Reg, i = .out r.toByte) ∨ (∃ n, i = .outn n) := by
  cases i
  case inp o =>
    obtain ⟨d, rfl⟩ := eq_toByte_of_ok hw
    exact .inl ⟨d, rfl⟩
  case out o =>
    obtain ⟨r, rfl⟩ := eq_toByte_of_ok hw
    exact .inr (.inl ⟨r, rfl⟩)
  case outn n => exact .inr (.inr ⟨n, rfl⟩)
  all_goals cases hio

section
variable {i : Instr} {s t : State}

/-- A comparison clears bits 7:2 of CC. -/
theorem Effect.cc_and_of_isComparison (h : Effect s i t) (hc : i.isComparison = true)
    (hw : i.wf = true) : t.cc &&& 0xFC = 0x00 := by
  cases h with
  | bad _ _ hb => cases hb.symm.trans hw
  | result _ _ _ _ _ hp | store _ _ _ _ _ _ hp =>
    obtain ⟨-, hne, -⟩ := hp
    cases hne.symm.trans hc
  | compare _ v _ _ hv =>
    rw [State.cc, reg_setReg_same]
    rcases hv with rfl | rfl | rfl <;> decide
  | jump _ _ _ hi =>
    exact absurd (hi.symm.trans (dst_and_writes_of_isComparison hc).2) (by decide)
  | push | pushn | pop | call | ret | inp | out | outn | nop | halt => cases hc

/-- Outside comparisons and I/O, CC changes only as the named destination. -/
theorem Effect.cc_frame (h : Effect s i t) (hc : i.isComparison = false) (hio : i.isIO = false)
    (hd : i.dst? ≠ some Reg.cc.toByte) : t.cc = s.cc :=
  h.reg_frame hd fun hm => by
    rcases isComparison_or_isIO_of_cc_mem hm with h' | h'
    · cases hc.symm.trans h'
    · cases hio.symm.trans h'

/-- What an I/O instruction that does not name CC does to it (`45_io.md` R220). -/
theorem exec_cc_of_isIO (h : exec i s = .next t) (hio : i.isIO = true) (hw : i.wf = true)
    (hd : i.dst? ≠ some Reg.cc.toByte) :
    (i.mnemonic = .inp → t.cc = if s.input = [] then s.cc ||| 0x04 else s.cc) ∧
    (i.mnemonic ≠ .inp → t.cc = if s.outAnswers.headD true then s.cc else s.cc ||| 0x04) := by
  rcases isIO_cases hio hw with ⟨d, rfl⟩ | ⟨r, rfl⟩ | ⟨n, rfl⟩
  · cases (exec_inp s d).symm.trans h
    have hcc : Reg.cc ≠ d := by rintro rfl; exact hd rfl
    exact ⟨fun _ => readInto_cc s hcc, fun hm => absurd rfl hm⟩
  · cases (exec_out s r).symm.trans h
    exact ⟨nofun, fun _ => writeOut_cc (s.reg r) s⟩
  · cases (exec_outn s n).symm.trans h
    exact ⟨nofun, fun _ => writeOut_cc n s⟩

end

/-- Settles O39: CC is listed for comparisons and I/O alone, a comparison leaves one of its three
values, and I/O sets the flag or leaves CC. -/
theorem whatWritesCC : Obligations.WhatWritesCC := by
  unfold Obligations.WhatWritesCC
  intro i s t h
  have he := effect_of_exec h
  refine ⟨fun hne => ?_, he.cc_and_of_isComparison, exec_cc_of_isIO h⟩
  by_contra hno
  simp only [not_or, Bool.not_eq_true] at hno
  obtain ⟨hc, hio, hd⟩ := hno
  exact hne (he.cc_frame hc hio hd)

/-- Settles O40: by the frame of each shape of an execute stage. -/
theorem whatWritesRegisters : Obligations.WhatWritesRegisters := by
  unfold Obligations.WhatWritesRegisters
  intro i s t h r hne
  by_contra hno
  obtain ⟨hd, hi⟩ := not_or.mp hno
  exact hne ((effect_of_exec h).reg_frame hd hi)

/-- Settles O41: by the memory frame of each shape of an execute stage. -/
theorem whatWritesMemory : Obligations.WhatWritesMemory := by
  unfold Obligations.WhatWritesMemory
  exact fun _ _ _ h _ ha => (effect_of_exec h).readMem_frame ha

/-- Settles O42: the shapes other than those of IN, OUT and OUTN leave the streams, and these
three do what `readInto` and `writeOut` do. -/
theorem whatTouchesStreams : Obligations.WhatTouchesStreams := by
  unfold Obligations.WhatTouchesStreams
  intro i s t h
  refine ⟨(effect_of_exec h).sameStreams, ?_, ?_⟩
  · rintro d rfl
    cases (exec_inp s d).symm.trans h
    exact ⟨readInto_input d s, readInto_output d s, readInto_outAnswers d s⟩
  · rintro b (⟨r, rfl, rfl⟩ | rfl)
    · cases (exec_out s r).symm.trans h
      exact ⟨writeOut_input _ s, writeOut_output _ s⟩
    · cases (exec_outn s b).symm.trans h
      exact ⟨writeOut_input b s, writeOut_output b s⟩

/-- Settles O43: an instruction that faults or that is neither a comparison nor I/O leaves CC, and
I/O only ever ORs the flag in. -/
theorem eosFlagIsSticky : Obligations.EosFlagIsSticky := by
  unfold Obligations.EosFlagIsSticky
  intro i s t h hs hc hd
  have he := effect_of_exec h
  have hor : (s.cc ||| 0x04).getLsbD 2 = true := getLsbD_two_or_maskEOS s.cc
  cases hio : i.isIO with
  | false => rwa [he.cc_frame hc hio hd]
  | true =>
    cases hw : i.wf with
    | false =>
      obtain ⟨o, -, -, rfl⟩ := he.eq_raise hw
      exact hs
    | true =>
      obtain ⟨hin, hout⟩ := exec_cc_of_isIO h hio hw hd
      by_cases hm : i.mnemonic = .inp
      · rw [hin hm]
        split
        · exact hor
        · exact hs
      · rw [hout hm]
        split
        · exact hs
        · exact hor

end Sys2Proof.Machine

/-! SUPPORT. Whole steps: where PC stands after the fetch and after the execute stage
(`10_state.md` R25, `40_execution_cycle.md` R120, `44_control_transfer.md` R200), and the steps of
CALL, NOP, HALT and of an unknown opcode. -/

namespace Sys2Proof.Machine

/-! ## PC after an execute stage -/

section
variable {s t : State} {i : Instr}

/-- What does not transfer control, and does not name PC as its destination, leaves it. -/
theorem Effect.pc_of_not_transfers (h : Effect s i t) (ht : i.transfers s.cc = false)
    (hd : i.dst? ≠ some Reg.pc.toByte) : t.pc = s.pc := by
  by_cases hi : Reg.pc ∈ i.implicitWrites
  · cases h with
    | bad => rfl
    | jump => rw [ht]; rfl
    | result _ _ _ _ _ hp | store _ _ _ _ _ _ hp =>
      obtain ⟨-, -, hnil, -⟩ := hp
      simp [hnil] at hi
    | compare _ _ _ hc => simp [(dst_and_writes_of_isComparison hc).2] at hi
    | call | ret => cases ht
    | push | pushn | pop | inp | out | outn | nop | halt =>
      simp [Instr.implicitWrites, Instr.mnemonic] at hi
  · exact h.reg_frame hd hi

/-- A transfer of control other than RET leaves PC at the operand byte. -/
theorem Effect.operands_of_transfers (h : Effect s i t) (hw : i.wf = true)
    (ht : i.transfers s.cc = true) (hret : i ≠ .ret) : i.operands = [t.pc] := by
  cases h with
  | bad _ _ hb => cases hb.symm.trans hw
  | result _ _ _ _ _ hp | store _ _ _ _ _ _ hp =>
    obtain ⟨-, -, -, -, hno⟩ := hp
    cases (hno _).symm.trans ht
  | compare _ _ _ hc => cases (transfers_of_isComparison hc _).symm.trans ht
  | jump _ x _ _ ho => rw [ht, if_pos rfl, State.pc, reg_setReg_same, ho]
  | call x => rw [State.pc, reg_setReg_same]; rfl
  | ret => exact absurd rfl hret
  | push | pushn | pop | inp | out | outn | nop | halt => cases ht

end

/-- Settles O5: the fetch leaves PC past the instruction, and the execute stage replaces it on a
transfer, or where PC is the destination. -/
theorem fetchAdvancesPc : Obligations.FetchAdvancesPc := by
  unfold Obligations.FetchAdvancesPc
  refine ⟨fun s => ⟨rfl, reg_setReg_same ..⟩, fun map s i s' hr hf => ?_⟩
  obtain ⟨-, -, hs'⟩ := fetchInstr_ok hf
  have hpc : s'.pc = s.pc + BitVec.ofNat 8 (1 + i.mnemonic.arity) := by
    rw [hs']
    exact reg_setReg_same ..
  have hx := stepWith_of_fetch hr hf
  refine ⟨hpc, hx, fun t h ht => ?_⟩
  rw [hx] at h
  have he := effect_of_exec h
  have hw : i.wf = true := by
    have hr' : s'.status ≠ .faulted := by simp [hs', hr]
    simpa [he.faulted_iff hr'] using ht
  refine ⟨fun hno hd => (he.pc_of_not_transfers hno hd).trans hpc, he.operands_of_transfers hw,
    ?_, ?_, ?_⟩
  · rintro rfl
    obtain ⟨u, hu, hupc, -⟩ := exec_ret_results s'
    cases hu.symm.trans h
    exact hupc
  · rintro v rfl
    cases (exec_movn s' Reg.pc v).symm.trans h
    exact reg_setReg_same ..
  · rintro a rfl
    cases (exec_mov s' a Reg.pc).symm.trans h
    exact reg_setReg_same ..

/-- Settles O23: each of these is well formed and has the target as its one operand byte, which a
transfer leaves in PC, where the next byte is fetched. -/
theorem targetIsOperandByte : Obligations.TargetIsOperandByte := by
  unfold Obligations.TargetIsOperandByte
  intro s t i x hi ht h
  obtain ⟨hw, hops, hret⟩ : i.wf = true ∧ i.operands = [x] ∧ i ≠ .ret := by
    revert i
    simp [Instr.wf, Instr.operands]
  have hpc : t.pc = x := by
    simpa [hops, eq_comm] using (effect_of_exec h).operands_of_transfers hw ht hret
  exact ⟨hpc, by rw [fetchByte_fst, hpc]⟩

/-! ## The state after a fetch -/

section
variable (n : Nat) (s : State)

theorem fetched_pc : (fetched n s).pc = s.pc + BitVec.ofNat 8 n := reg_setReg_same ..

theorem fetched_reg_ne {r : Reg} (hr : r ≠ Reg.pc) : (fetched n s).reg r = s.reg r :=
  reg_setReg_ne s hr _

theorem sameRegsBut_fetched : SameRegsBut [Reg.pc] s (fetched n s) :=
  fun _ hr => fetched_reg_ne n s (by simpa using hr)

end

/-- Under an injective map, an opcode at PC whose row has no operands is fetched alone. -/
theorem fetchInstr_of_no_operands {map : OpcodeMap} (inj : ∀ m n, map m = map n → m = n)
    {s : State} {i : Instr} (hop : s.readMem s.pc = map i.mnemonic) (hi : i.operands = []) :
    fetchInstr map s = (.ok i, fetched 1 s) := by
  have ha : i.mnemonic.arity = 0 := by rw [← operands_length, hi]; rfl
  have hf : fetchInstr map s = (.ok i, fetched (1 + i.mnemonic.arity) s) :=
    fetchInstr_of_bytes (hop ▸ decodeOpcode_map inj _) (by rw [ha, hi]; rfl)
  rwa [ha] at hf

/-- Under an injective map, the opcode of CALL at PC is fetched with the byte after it. -/
theorem fetchInstr_of_call {map : OpcodeMap} (inj : ∀ m n, map m = map n → m = n) {s : State}
    (hop : s.readMem s.pc = map .call) :
    fetchInstr map s = (.ok (.call (s.readMem (s.pc + 1))), fetched 2 s) :=
  fetchInstr_of_bytes (i := .call _) (hop ▸ decodeOpcode_map inj _)
    (by simp [Instr.operands, Instr.mnemonic, Mnemonic.arity, Mnemonic.kinds])

/-- Settles O22: the fetch leaves PC two past the opcode, which is what CALL pushes. -/
theorem callStep : Obligations.CallStep := by
  unfold Obligations.CallStep
  intro map s inj hm hr hop
  obtain ⟨t, ht, hpc, hsp, htop, hregs, hmem, hstreams, hclock, hstatus, -⟩ :=
    exec_call_results (s := fetched 2 s) hm (s.readMem (s.pc + 1))
  have hsp' : (fetched 2 s).sp = s.sp := fetched_reg_ne 2 s sp_ne_pc
  rw [hsp'] at hsp htop hmem
  refine ⟨t, (stepWith_of_fetch hr (fetchInstr_of_call inj hop)).trans ht, hpc, hsp,
    htop.trans (fetched_pc 2 s), hclock, hstatus.trans hr, fun r hr' => ?_, hmem, hstreams⟩
  rw [hregs r hr', fetched_reg_ne 2 s (fun h => hr' (by simp [h]))]

/-- Settles O27: the fetch of one byte, and then the execute stage of NOP or of HALT. -/
theorem nopHaltSteps : Obligations.NopHaltSteps := by
  unfold Obligations.NopHaltSteps
  intro map s inj hr
  refine ⟨fun hop => ?_, fun hop => ?_⟩
  · have hf : fetchInstr map s = (.ok .nop, fetched 1 s) := fetchInstr_of_no_operands inj hop rfl
    exact ⟨_, stepWith_of_fetch hr hf, hr, fetched_pc 1 s, rfl, sameRegsBut_fetched 1 s,
      fun _ => rfl, ⟨rfl, rfl, rfl⟩, rfl, rfl⟩
  · have hf : fetchInstr map s = (.ok .halt, fetched 1 s) := fetchInstr_of_no_operands inj hop rfl
    exact ⟨_, stepWith_of_fetch hr hf, rfl, fetched_pc 1 s, rfl, sameRegsBut_fetched 1 s,
      fun _ => rfl, ⟨rfl, rfl, rfl⟩, rfl, rfl⟩

/-- The opcode values of the default map are the numbers below 44, in the order of the table. -/
theorem map_toNat_opcodeMap : (Mnemonic.all.map fun m => (opcodeMap m).toNat) = List.range 44 := by
  decide

/-- Settles O29: the opcode fetch and then the exception; and the default map takes each value
below 0x2C. -/
theorem unknownOpcodeTakesException : Obligations.UnknownOpcodeTakesException := by
  unfold Obligations.UnknownOpcodeTakesException
  refine ⟨fun map s hr hop => ?_, fun op => ?_⟩
  · have hf := fetchInstr_of_unknown (decodeOpcode_eq_none.mpr hop)
    exact ⟨_, stepWith_of_unknown hr hf, rfl, rfl, fetched_pc 1 s, rfl, sameRegsBut_fetched 1 s,
      fun _ => rfl, ⟨rfl, rfl, rfl⟩, rfl⟩
  · have hlt : op.toNat < 0x2C ↔ ∃ m, opcodeMap m = op := by
      rw [← List.mem_range, ← map_toNat_opcodeMap]
      simp [mem_all, BitVec.toNat_inj]
    rw [← not_lt, hlt, not_exists]

/-- Settles O4: the bytes decoded are those that are fetched. -/
theorem stepRunsDecodedInstruction : Obligations.StepRunsDecodedInstruction := by
  unfold Obligations.StepRunsDecodedInstruction
  intro s i rest hr hdec
  obtain ⟨hop, hbytes⟩ := decodeWith_eq_instr hdec
  have hops : i.operands = (List.range i.mnemonic.arity).map
      fun k => s.readMem (s.pc + 1 + BitVec.ofNat 8 k) := by
    have htwo : [s.readMem (s.pc + 1), s.readMem (s.pc + 2)] =
        (List.range 2).map fun k => s.readMem (s.pc + 1 + BitVec.ofNat 8 k) := by
      simp [List.range_succ, BitVec.add_assoc]
    calc i.operands
        = (i.operands ++ rest).take i.mnemonic.arity :=
          (List.take_left' (operands_length i)).symm
      _ = _ := by
          rw [← hbytes, htwo, ← List.map_take, List.take_range,
            Nat.min_eq_left (arity_le_two _)]
  have hlen : (encode i).length = 1 + i.mnemonic.arity := by
    rw [← operands_length, Nat.add_comm]
    rfl
  rw [hlen]
  exact stepWith_of_fetch hr (fetchInstr_of_bytes hop hops)

end Sys2Proof.Machine


/-! SUPPORT. Power-on, the load and load-and-run (`10_state.md` section 9,
`70_reset_and_hazards.md` R272 to R274). -/

namespace Sys2Proof.Machine

/-- Every register of the zeroed file reads 0x00. -/
theorem zeroRegs_getElem (r : Reg) : zeroRegs[r] = 0x00 := Vector.getElem_replicate ..

/-- A program that fits is loaded when no run is in progress. -/
theorem loadProgram_of_fits {p : List Byte} {s : State} (hs : s.status ≠ .running)
    (hp : p.length ≤ 256) : loadProgram p s = .next (loadedState p s) := by
  rw [loadProgram, if_neg hs, if_neg (Nat.not_lt.mpr hp)]

/-- An answered load is that of a program that fits. -/
theorem loadProgram_eq_next {p : List Byte} {s t : State} (h : loadProgram p s = .next t) :
    p.length ≤ memSize ∧ t = loadedState p s := by
  unfold loadProgram at h
  split at h
  case isTrue => cases h
  case isFalse =>
    split at h
    case isTrue => cases h
    case isFalse hp =>
      cases h
      exact ⟨Nat.le_of_not_lt hp, rfl⟩

/-- Settles O49: nothing is listed in the memory at power-on, so every byte reads as unlisted. -/
theorem powerOnValues : Obligations.PowerOnValues := by
  unfold Obligations.PowerOnValues
  exact ⟨zeroRegs_getElem, fun _ => rfl, rfl, rfl, hostClock_of_not_running (by decide)⟩

/-- Settles O50: the loaded state holds the program's bytes, then zeros. -/
theorem loadedProgramState : Obligations.LoadedProgramState := by
  unfold Obligations.LoadedProgramState
  exact fun p s hs hp => ⟨_, loadProgram_of_fits hs hp, zeroRegs_getElem,
    fun a => readAt_ofProgram hp a.toNat, rfl, rfl, ⟨rfl, rfl, rfl⟩, rfl⟩

/-- Settles O51: the length is checked before anything is written. -/
theorem tooLargeProgramRejected : Obligations.TooLargeProgramRejected := by
  unfold Obligations.TooLargeProgramRejected
  intro fuel p s hs hp
  have h : loadProgram p s = .fault .programTooLarge :=
    loadProgram_eq_fault_iff.mpr ⟨rfl, hs, hp⟩
  exact ⟨h, by rw [loadAndRun, h]⟩

/-- Settles O56: nothing is listed at power-on, and a program that fits is written in canonical
form, with the diagnostic cleared. -/
theorem resetAndLoadMeetInvariant : Obligations.ResetAndLoadMeetInvariant := by
  unfold Obligations.ResetAndLoadMeetInvariant
  refine ⟨by decide, fun p s t h => ?_⟩
  obtain ⟨hp, rfl⟩ := loadProgram_eq_next h
  exact ⟨wf_ofProgram hp, by simp [loadedState]⟩

/-- A running core's step does not end Idle, so no run from a state that is not Idle does. -/
theorem run_status_ne_idle {k : Nat} {s t : State} (hs : s.status ≠ .idle)
    (h : run k s = .next t) : t.status ≠ .idle := by
  refine run_induction (R := fun s t => s.status ≠ .idle → t.status ≠ .idle) (fun _ h => h)
    (fun h1 h2 h => h2 (h1 h)) (fun {s t} hstep hs => ?_) h hs
  by_cases hr : s.status = .running
  · obtain ⟨-, hidle, -⟩ := onlyHaltOrFaultEndsARun opcodeMap s t hr hstep
    exact hidle
  · cases (stepWith_of_not_running hr).symm.trans hstep
    exact hs

/-- Load-and-run of an accepted program answers by the state its run is in. -/
theorem loadAndRun_of_fits {p : List Byte} {s t : State} {fuel : Nat} (hs : s.status ≠ .running)
    (hp : p.length ≤ 256) (h : run fuel (loadedState p s) = .next t) :
    loadAndRun fuel p s = (runResult t, t) := by
  have h' : Sys2Proof.core.run fuel (loadedState p s) = .next t := h
  simp only [loadAndRun, loadProgram_of_fits hs hp, h']

/-- Settles O52: the result is read off the status, which is never Idle along a run. -/
theorem loadAndRunResult : Obligations.LoadAndRunResult := by
  unfold Obligations.LoadAndRunResult
  intro fuel p s hs hp
  obtain ⟨t, ht⟩ := run_total fuel (loadedState p s)
  have hidle : t.status ≠ .idle := run_status_ne_idle (by simp [loadedState]) ht
  rw [loadAndRun_of_fits hs hp ht]
  refine ⟨t, ht, rfl, ?_⟩
  simp only [runResult]
  cases hst : t.status with
  | idle => exact absurd hst hidle
  | running | halted | faulted => simp

end Sys2Proof.Machine
